-- ==== Sys2Proof/Word.lean ====
section
/-! DEFINITION. The byte, the unit of every memory and of every channel value (R6, R30). -/
namespace Sys2Proof

/-- A byte is 8 bits, bit 0 its least significant (R6). -/
abbrev Byte := BitVec 8

end Sys2Proof
end

