-- ==== Sys2Proof/Syntax.lean ====
section
/-! DEFINITION. The instructions: one constructor per row of the opcode table (R57), and the sub-blocks that are
their operands (R51 to R55). -/
namespace Sys2Proof

/-- The formats of the enumeration {Bc1, Bc2, Bc3, Bc4, Bc5} (R2). -/
inductive Format where
  | bc1 | bc2 | bc3 | bc4 | bc5
  deriving DecidableEq, Repr

/-- Sub-block `C64` (R52): two packed 5:6:5 endpoints and one 2-bit palette index per texel, in raster order. -/
structure C64 where
  c0 : BitVec 16
  c1 : BitVec 16
  cidx : List (BitVec 2)
  deriving DecidableEq, Repr

/-- Sub-block `X64` (R53): one 4-bit alpha per texel, in raster order. -/
structure X64 where
  xa : List (BitVec 4)
  deriving DecidableEq, Repr

/-- Sub-block `A64` (R54): two 8-bit endpoints and one 3-bit palette index per texel, in raster order. -/
structure A64 where
  a0 : Byte
  a1 : Byte
  aidx : List (BitVec 3)
  deriving DecidableEq, Repr

/-- One constructor per row of the opcode table. A decode instruction carries the compressed block it runs on, cut into
the fields of R52 to R55; a reserved code fetches no block and has no operand (R58). -/
inductive Instr where
  | rsvd0
  | decBc1 (col : C64)
  | decBc2 (alpha : X64) (col : C64)
  | decBc3 (alpha : A64) (col : C64)
  | decBc4 (chan : A64)
  | decBc5 (chan0 : A64) (chan1 : A64)
  | rsvd6
  | rsvd7
  deriving DecidableEq, Repr

end Sys2Proof
end

