-- ==== Sys2Proof/WellFormed.lean ====
section
/-! DEFINITION. Well-formed instructions: a sub-block has one field for each of its 16 texels (R52, R53, R54). -/
namespace Sys2Proof

/-- Sixteen palette indices, `t = 0 … 15` (R52). -/
def C64.wf (c : C64) : Bool := c.cidx.length == 16

/-- Sixteen alpha values, `t = 0 … 15` (R53). -/
def X64.wf (x : X64) : Bool := x.xa.length == 16

/-- Sixteen palette indices, `t = 0 … 15` (R54). -/
def A64.wf (a : A64) : Bool := a.aidx.length == 16

/-- An instruction is well formed when each of its sub-blocks is (R55). -/
def Instr.wf : Instr → Bool
  | .rsvd0 => true
  | .decBc1 col => col.wf
  | .decBc2 alpha col => alpha.wf && col.wf
  | .decBc3 alpha col => alpha.wf && col.wf
  | .decBc4 chan => chan.wf
  | .decBc5 chan0 chan1 => chan0.wf && chan1.wf
  | .rsvd6 => true
  | .rsvd7 => true

end Sys2Proof
end

