-- ==== Sys2Proof/Decode.lean ====
section
/-! DEFINITION. The decoder: from a FORMAT code and a byte stream to an instruction (R50 to R60), total and rejecting by
name; after it the encoder, the packers of R62. The bit-field unpacker `FIELD` (R70) stands here too. -/
namespace Sys2Proof

/-! ## The opcode map -/

/-- What a row of the opcode table selects: a reserved code or the decoding of one format (R57). -/
inductive Op where
  | rsvd0
  | dec (f : Format)
  | rsvd6
  | rsvd7
  deriving DecidableEq, Repr

/-- One row of the opcode table: mask and match over `FORMAT[2:0]`. -/
structure OpRow where
  mask : BitVec 3
  pattern : BitVec 3
  op : Op
  deriving DecidableEq, Repr

/-- The opcode table (R57), in its own order. -/
def opTable : List OpRow :=
  [ ⟨0x7, 0x0, .rsvd0⟩,
    ⟨0x7, 0x1, .dec .bc1⟩,
    ⟨0x7, 0x2, .dec .bc2⟩,
    ⟨0x7, 0x3, .dec .bc3⟩,
    ⟨0x7, 0x4, .dec .bc4⟩,
    ⟨0x7, 0x5, .dec .bc5⟩,
    ⟨0x7, 0x6, .rsvd6⟩,
    ⟨0x7, 0x7, .rsvd7⟩ ]

/-- A row matches a code that agrees with its pattern under its mask. -/
def OpRow.matches (r : OpRow) (code : BitVec 3) : Bool := code &&& r.mask == r.pattern

/-- The operation that a FORMAT code selects. -/
def lookupOp (code : BitVec 3) : Option Op :=
  (opTable.find? fun r => r.matches code).map OpRow.op

/-- The format of a legal code; a reserved code has none (R15, R58). -/
def formatOf (code : BitVec 3) : Option Format :=
  match lookupOp code with
  | some (.dec f) => some f
  | _ => none

/-- The FORMAT code of a format (R15). -/
def Format.code : Format → BitVec 3
  | .bc1 => 1
  | .bc2 => 2
  | .bc3 => 3
  | .bc4 => 4
  | .bc5 => 5

/-- `size(f)`, the bytes of one block (R5, R50). -/
def Format.size : Format → Nat
  | .bc1 => 8
  | .bc2 => 16
  | .bc3 => 16
  | .bc4 => 8
  | .bc5 => 16

/-- `chan(f)`, the bytes of one output pixel (R5, R105). -/
def Format.chan : Format → Nat
  | .bc1 => 4
  | .bc2 => 4
  | .bc3 => 4
  | .bc4 => 1
  | .bc5 => 2

/-- The bytes that a step with this FORMAT code fetches: a whole block, or none for a reserved code (R50, R58). -/
def codeBytes (code : BitVec 3) : Nat :=
  match formatOf code with
  | some f => f.size
  | none => 0

/-! ## The bit-field unpacker -/

/-- A list of bytes as one little-endian integer, the lowest offset least significant (R6). -/
def blockValue : List Byte → Nat
  | [] => 0
  | b :: bs => b.toNat + 256 * blockValue bs

/-- `FIELD(B, off, w)` (R70), total by its first formula: bits beyond the block read as 0 (R71, D28; log 13). -/
def field (bs : List Byte) (off w : Nat) : BitVec w :=
  BitVec.ofNat w (blockValue bs >>> off)

/-- Sixteen `w`-bit fields in raster order, the first at bit `base` (R52, R53, R54). -/
def texelFields (bs : List Byte) (base w : Nat) : List (BitVec w) :=
  (List.range 16).map fun t => field bs (base + w * t) w

/-! ## The decoder -/

/-- Sub-block `C64` (R52, R85, R89). -/
def decodeC64 (bs : List Byte) : C64 :=
  { c0 := field bs 0 16, c1 := field bs 16 16, cidx := texelFields bs 32 2 }

/-- Sub-block `X64` (R53, R96). -/
def decodeX64 (bs : List Byte) : X64 :=
  { xa := texelFields bs 0 4 }

/-- Sub-block `A64` (R54, R97, R101). -/
def decodeA64 (bs : List Byte) : A64 :=
  { a0 := field bs 0 8, a1 := field bs 8 8, aidx := texelFields bs 16 3 }

/-- The instruction of one whole block of format `f`: bytes 0 to 7 and, for a 16-byte block, bytes 8 to 15 (R55, R105;
the order of the halves is D6 and D7, log 16). -/
def decodeBlock (f : Format) (bs : List Byte) : Instr :=
  match f with
  | .bc1 => .decBc1 (decodeC64 (bs.take 8))
  | .bc2 => .decBc2 (decodeX64 (bs.take 8)) (decodeC64 ((bs.drop 8).take 8))
  | .bc3 => .decBc3 (decodeA64 (bs.take 8)) (decodeC64 ((bs.drop 8).take 8))
  | .bc4 => .decBc4 (decodeA64 (bs.take 8))
  | .bc5 => .decBc5 (decodeA64 (bs.take 8)) (decodeA64 ((bs.drop 8).take 8))

/-- Why the decoder rejects its input. -/
inductive DecodeError where
  /-- The stream holds fewer bytes than one block of the format. -/
  | truncatedBlock
  /-- No row of the opcode table matches the code. It does not happen: the table is total (R57). -/
  | noOpcodeRow
  deriving DecidableEq, Repr

/-- The decoder: the instruction that a FORMAT code and a byte stream give, with the rest of the stream (R57, R60).
Total: no block is illegal (R59), a reserved code takes no byte, and a stream too short for a block is rejected. -/
def decode (code : BitVec 3) (stream : List Byte) : Except DecodeError (Instr × List Byte) :=
  match lookupOp code with
  | none => .error .noOpcodeRow
  | some .rsvd0 => .ok (.rsvd0, stream)
  | some .rsvd6 => .ok (.rsvd6, stream)
  | some .rsvd7 => .ok (.rsvd7, stream)
  | some (.dec f) =>
    if stream.length < f.size then .error .truncatedBlock
    else .ok (decodeBlock f (stream.take f.size), stream.drop f.size)

/-! ## The encoder -/

/-- The `n` bytes of a little-endian integer: `B[i] = (V >> 8i) mod 256` (R62). -/
def leBytes : Nat → Nat → List Byte
  | 0, _ => []
  | n + 1, v => BitVec.ofNat 8 v :: leBytes n (v / 256)

/-- Fields of `w` bits packed contiguously, the first lowest: the sum of `it << (w * t)` (R62). -/
def packFields {w : Nat} : List (BitVec w) → Nat
  | [] => 0
  | x :: xs => x.toNat + 2 ^ w * packFields xs

/-- `PACKC` (R62). -/
def encodeC64 (c : C64) : List Byte :=
  leBytes 8 (c.c0.toNat + 2 ^ 16 * c.c1.toNat + 2 ^ 32 * packFields c.cidx)

/-- `PACKX` (R62). -/
def encodeX64 (x : X64) : List Byte :=
  leBytes 8 (packFields x.xa)

/-- `PACKA` (R62). -/
def encodeA64 (a : A64) : List Byte :=
  leBytes 8 (a.a0.toNat + 2 ^ 8 * a.a1.toNat + 2 ^ 16 * packFields a.aidx)

/-- The FORMAT code of an instruction (R57). -/
def Instr.code : Instr → BitVec 3
  | .rsvd0 => 0
  | .decBc1 _ => 1
  | .decBc2 _ _ => 2
  | .decBc3 _ _ => 3
  | .decBc4 _ => 4
  | .decBc5 _ _ => 5
  | .rsvd6 => 6
  | .rsvd7 => 7

/-- The block of an instruction, `lo ++ hi` (R55, R62). -/
def Instr.block : Instr → List Byte
  | .rsvd0 => []
  | .decBc1 col => encodeC64 col
  | .decBc2 alpha col => encodeX64 alpha ++ encodeC64 col
  | .decBc3 alpha col => encodeA64 alpha ++ encodeC64 col
  | .decBc4 chan => encodeA64 chan
  | .decBc5 chan0 chan1 => encodeA64 chan0 ++ encodeA64 chan1
  | .rsvd6 => []
  | .rsvd7 => []

/-- The words of an instruction: its FORMAT code and its block bytes. -/
def encode (i : Instr) : BitVec 3 × List Byte := (i.code, i.block)

/-! ## The opcode table's numbering -/

/-- The FORMAT code of a table word: bits 2:0 of its first byte; the register has no other bit (R15, U12; log 14). -/
def tableCode (w : Nat) : BitVec 3 := BitVec.ofNat 3 w

/-- The operand word of a table word: 16 bytes from bit 8 on, every bit at or above `nbits` 0. -/
def tableOperand (nbits w : Nat) : List Byte := leBytes 16 ((w % 2 ^ nbits) >>> 8)

/-- The instruction the decoder reads from an instruction whose bits are `w`, numbered as the opcode table numbers them:
the FORMAT code in the first byte, the block in the bytes after it. -/
def decodeTableWord (nbits w : Nat) : Option Instr :=
  match decode (tableCode w) (tableOperand nbits w) with
  | .ok (i, _) => some i
  | .error _ => none

end Sys2Proof
end

