-- ==== Sys2Proof/Config.lean ====
section
/-! DEFINITION. What an implementation fixes (the two OPEN parameters of R5) and the free choices the spec leaves open.
Every constant here is opaque: no proof can see its value, so a statement holds for every value of it. -/
namespace Sys2Proof

/-- Rounding bias of the punch-through midpoint: 0 or 1, left OPEN (R5, R88, D10; log 2). -/
opaque Config.midpointBias : Fin 2

/-- Whether an input longer than required is an error: left OPEN (R5, R138, D11; log 3). -/
opaque Config.strictLength : Bool

/-- The places where the spec leaves the value of a byte open among a few candidates. -/
inductive FreeUse where
  /-- A byte of `IN` that the host rewrote during the running command, as the block fetch sees it (R159, U3). -/
  | fetch
  /-- The same byte, as the pixel of texel `t` shows it: each pixel of the block by its own choice (R45, U3). -/
  | texel (t : Nat)
  /-- A byte of `OUT` that the host wrote during the running command: overwritten or surviving (R160). -/
  | store
  /-- A byte of `OUT` below `out_size` read by the host while busy: old or new (R160, U2). -/
  | read
  /-- A byte of `OUT` below `out_size` after a reset during a command: old or new (R156, U4). -/
  | abandon
  deriving DecidableEq, Repr

/-- The free choice: applied to the use, to the counter `State.freeCtr` and to the byte offset (log 6). -/
opaque Config.freeChoice : FreeUse → Nat → Nat → Nat

end Sys2Proof
end

