-- ==== Sys2Proof/Machine/State.lean ====
section
/-! DEFINITION. The state of BCN-CORE (R10 to R26), as plain data, the machine right after reset, and the reasons a step
can stop. -/
namespace Sys2Proof.Machine

/-- A byte memory: (offset, byte) pairs, offsets strictly rising, no pair equal to what an unlisted byte reads as. -/
abbrev Memory := List Host.Cell

/-- What a byte reads as that the list does not hold (log 4). -/
def Memory.unlisted : Byte := 0

/-- The canonical form of a memory. -/
abbrev Memory.wf (m : Memory) : Prop :=
  m.Pairwise (fun c d => c.1 < d.1) ∧ ∀ c ∈ m, c.2 ≠ Memory.unlisted

/-- The host-visible register file (R10). -/
inductive Reg where
  | format | width | height | inLen | ctrl | status
  deriving DecidableEq, Repr

/-- One access of the host, or a step in which it makes none. A register is accessed by name with a value of its own
width (U12); STATUS is read only and CTRL write only (R10). -/
inductive HostOp where
  /-- The host does nothing: the core takes its own step. -/
  | pass
  | writeFormat (v : BitVec 3)
  | writeWidth (v : BitVec 32)
  | writeHeight (v : BitVec 32)
  | writeInLen (v : BitVec 64)
  /-- Write of CTRL, bit 0 START (R18). -/
  | writeCtrl (v : BitVec 1)
  | readReg (r : Reg)
  | writeIn (offset : Nat) (v : Byte)
  | writeOut (offset : Nat) (v : Byte)
  | readOut (offset : Nat)
  /-- The reset input is asserted (R155, R156). -/
  | reset
  deriving DecidableEq, Repr

/-- The three error kinds (R135). -/
inductive ErrorKind where
  | inputTooShort | unsupportedFormat | invalidDimensions
  deriving DecidableEq, Repr

/-- The machine's state. The first part is the spec's table (R10); the second part is the model's own. -/
structure State where
  /-- Register 0, `FORMAT` (R15). -/
  format : BitVec 3
  /-- Register 1, `WIDTH` (R16). -/
  width : BitVec 32
  /-- Register 2, `HEIGHT` (R16). -/
  height : BitVec 32
  /-- Register 3, `IN_LEN` (R17). -/
  inLen : BitVec 64
  /-- Register 5, `STATUS`: bit 0 BUSY, bit 1 DONE, bits 3:2 ERR (R19). -/
  status : BitVec 4
  /-- `CUR`, the read cursor, the program counter (R13). -/
  cur : BitVec 65
  /-- `BXI`, the column of the next block (R14). -/
  bxi : BitVec 30
  /-- `BYI`, the row of the next block (R14). -/
  byi : BitVec 30
  /-- `BLK`, the block register, byte lane `i` in bits 8i+7:8i (R11). -/
  blk : BitVec 128
  /-- `PATCH`, the texel registers, channel `k` in bits 8k+7:8k (R12). -/
  patch : Vector (BitVec 32) 16
  /-- The input space `IN` (R22). -/
  inMem : Memory
  /-- The output space `OUT` (R23). -/
  outMem : Memory
  /-- The model's own: the host's pending accesses, oldest first (log 1). -/
  host : List HostOp
  /-- The model's own: what the host's latest read returned (log 1). -/
  rdata : BitVec 64
  /-- The model's own: the counter the free choices are applied to (log 6). -/
  freeCtr : Nat
  /-- The model's own: `OUT` as it was when the running command was accepted (log 7). -/
  outOld : Memory
  /-- The model's own: values that bytes of `IN` had before the host rewrote them during the running command (log 8). -/
  inLog : List Host.Cell
  /-- The model's own: bytes of `OUT` that the host wrote during the running command (log 9). -/
  outLog : List Host.Cell
  deriving DecidableEq, Repr

/-- The machine right after reset (R26); `BLK` and `PATCH`, which the spec leaves unspecified, hold 0 (log 5). -/
def State.reset : State :=
  { format := 0, width := 0, height := 0, inLen := 0, status := 0, cur := 0, bxi := 0, byi := 0, blk := 0,
    patch := Vector.replicate 16 0, inMem := [], outMem := [], host := [], rdata := 0, freeCtr := 0, outOld := [],
    inLog := [], outLog := [] }

/-- Why the machine stops. The spec has no such event (R140): the three errors of R135 are next states. -/
inductive Fault where
  /-- Raised by `step` where the decoder rejects the bytes fetched for it. Safe: the machine would stop where the hardware
  goes on. It is never reached: a step hands the decoder a whole block (log 11). -/
  | undecodable
  deriving DecidableEq, Repr

/-- Why an instruction has no meaning. -/
inductive Refusal where
  /-- Raised by an arm of `exec` that has no meaning yet. Safe. No arm raises it. -/
  | notModelled (mnemonic : String)
  deriving DecidableEq, Repr

end Sys2Proof.Machine
end

