-- ==== Sys2Proof/Machine/Flags.lean ====
section
/-! DEFINITION. The stored flags, the fields of STATUS (R19, R20), and the two predicates of a sub-block (R21). -/
namespace Sys2Proof.Machine

/-- `STATUS.BUSY`, bit 0 (R19). -/
def State.busy (s : State) : Bool := s.status.getLsbD 0

/-- `STATUS.DONE`, bit 1 (R19). -/
def State.done (s : State) : Bool := s.status.getLsbD 1

/-- `STATUS.ERR`, bits 3:2 (R19). -/
def State.err (s : State) : BitVec 2 := s.status.extractLsb' 2 2

/-- The level output `done`, equal to `STATUS.DONE` at all times (R144). -/
def State.doneSignal (s : State) : Bool := s.done

/-- The STATUS word of its three fields (R19). -/
def statusWord (busy done : Bool) (err : BitVec 2) : BitVec 4 :=
  err ++ (BitVec.ofBool done ++ BitVec.ofBool busy)

/-- The code of an error kind (R135). -/
def ErrorKind.code : ErrorKind → BitVec 2
  | .inputTooShort => 1
  | .unsupportedFormat => 2
  | .invalidDimensions => 3

/-- `PT`, the punch-through predicate: unsigned comparison of the raw endpoint words, Bc1 only (R86). -/
def punchThrough (allowPt : Bool) (c : C64) : Bool := allowPt && decide (c.c0.toNat ≤ c.c1.toNat)

/-- `A7`, the 7-step predicate: unsigned comparison of the raw endpoint bytes (R98). -/
def sevenStep (a : A64) : Bool := decide (a.a0.toNat > a.a1.toNat)

end Sys2Proof.Machine
end

