-- ==== Sys2Proof/Machine/Operands.lean ====
section
/-! DEFINITION. How a field becomes an operand (R56): the expansions and the shared interpolation (R75 to R83, R95). -/
namespace Sys2Proof.Machine

/-- Three colour channels. -/
structure Rgb where
  r : Byte
  g : Byte
  b : Byte
  deriving DecidableEq, Repr

/-- A palette entry or texel of a colour block. -/
structure Rgba where
  r : Byte
  g : Byte
  b : Byte
  a : Byte
  deriving DecidableEq, Repr

/-- `EXP5(v) = (v << 3) | (v >> 2)` (R75). -/
def exp5 (v : BitVec 5) : Byte := v.setWidth 8 <<< 3 ||| v.setWidth 8 >>> 2

/-- `EXP6(v) = (v << 2) | (v >> 4)` (R76). -/
def exp6 (v : BitVec 6) : Byte := v.setWidth 8 <<< 2 ||| v.setWidth 8 >>> 4

/-- `EXP4(v) = (v << 4) | v` (R95). -/
def exp4 (v : BitVec 4) : Byte := v.setWidth 8 <<< 4 ||| v.setWidth 8

/-- `EXP565(c)`: red `c[15:11]`, green `c[10:5]`, blue `c[4:0]` (R77; the positions are D5, log 16). -/
def exp565 (c : BitVec 16) : Rgb :=
  { r := exp5 (c.extractLsb' 11 5), g := exp6 (c.extractLsb' 5 6), b := exp5 (c.extractLsb' 0 5) }

/-- `INTERP(c0, c1, num, den)`, both divisions floor divisions of natural numbers (R78, D27). -/
def interp (c0 c1 : Byte) (num den : Nat) : Byte :=
  BitVec.ofNat 8 ((c0.toNat * (den - num) + c1.toNat * num + den / 2) / den)

/-- `INTERP` on each channel, opaque alpha (R79, R87). -/
def interpRgb (p q : Rgb) (num den : Nat) : Rgba :=
  { r := interp p.r q.r num den, g := interp p.g q.g num den, b := interp p.b q.b num den, a := 255 }

/-- The punch-through midpoint of one channel, with the OPEN bias (R88). -/
def midpoint (bias : Nat) (x y : Byte) : Byte := BitVec.ofNat 8 ((x.toNat + y.toNat + bias) / 2)

/-- The punch-through midpoint of each channel, opaque alpha (R88). -/
def midpointRgb (bias : Nat) (p q : Rgb) : Rgba :=
  { r := midpoint bias p.r q.r, g := midpoint bias p.g q.g, b := midpoint bias p.b q.b, a := 255 }

/-- An endpoint colour as an opaque palette entry (R87, R88). -/
def Rgb.opaqueEntry (p : Rgb) : Rgba := { r := p.r, g := p.g, b := p.b, a := 255 }

end Sys2Proof.Machine
end

