-- ==== Sys2Proof/Machine/Ops.lean ====
section
/-! DEFINITION. The named operations over memory and registers: `MemRead` and `MemWrite` (R8), the derived sizes (R120),
block fetch (R123), texel store and clipping (R124), the advance of the cursor and the end of a command (R122, R125), and
error entry (R141). -/
namespace Sys2Proof.Machine

/-! ## Memory -/

/-- The byte at an offset. -/
def Memory.read : Memory → Nat → Byte
  | [], _ => Memory.unlisted
  | c :: m, a => if c.1 = a then c.2 else Memory.read m a

/-- A cell put in its place by offset. -/
def Memory.insert : Memory → Host.Cell → Memory
  | [], c => [c]
  | d :: m, c => if c.1 < d.1 then c :: d :: m else d :: Memory.insert m c

/-- A byte written at an offset; writing what an unlisted byte reads as removes the entry. -/
def Memory.write (m : Memory) (a : Nat) (b : Byte) : Memory :=
  let rest := m.filter fun c => c.1 != a
  if b = Memory.unlisted then rest else Memory.insert rest (a, b)

/-- `MemWrite(a, n, v)`: the bytes of the list, the first at offset `a` (R8). -/
def Memory.writeBytes : Memory → Nat → List Byte → Memory
  | m, _, [] => m
  | m, a, b :: bs => Memory.writeBytes (m.write a b) (a + 1) bs

/-! ## Free choices -/

/-- The values logged for an offset. -/
def logged (log : List Host.Cell) (a : Nat) : List Byte := (log.filter fun c => c.1 == a).map Prod.snd

/-- The byte itself where the spec leaves nothing open, else a free choice among it and its alternatives (log 6). -/
def pick (use : FreeUse) (ctr a : Nat) (b : Byte) : List Byte → Byte
  | [] => b
  | c :: cs => (b :: c :: cs).getD (Config.freeChoice use ctr a % (cs.length + 2)) b

/-! ## Derived sizes (R7, R120) -/

/-- `ceil4(n) = (n + 3) div 4` (R7). -/
def ceil4 (n : Nat) : Nat := (n + 3) / 4

/-- `blocks_wide` (R120). -/
def State.blocksWide (s : State) : Nat := ceil4 s.width.toNat

/-- `blocks_high` (R120). -/
def State.blocksHigh (s : State) : Nat := ceil4 s.height.toNat

/-- `nblocks` (R120). -/
def State.nblocks (s : State) : Nat := s.blocksWide * s.blocksHigh

/-- `required`, the bytes of input the command reads, exact (R120, D3). -/
def State.required (s : State) (f : Format) : Nat := s.nblocks * f.size

/-- `out_size`, the bytes of output the command writes, exact (R120, D3). -/
def State.outSize (s : State) (f : Format) : Nat := s.width.toNat * s.height.toNat * f.chan

/-- The format of the running command, if one is running. -/
def State.running (s : State) : Option Format := if s.busy then formatOf s.format else none

/-! ## Byte lanes -/

/-- The low byte lanes of a register replaced by the bytes of the list, the others kept (R11, R12). -/
def setLanes {w : Nat} (old : BitVec w) (bs : List Byte) : BitVec w :=
  BitVec.ofNat w (old.toNat / 256 ^ bs.length * 256 ^ bs.length + blockValue bs)

/-- The low `n` byte lanes of a register, lane 0 first (R11, R12). -/
def lanes {w : Nat} (n : Nat) (r : BitVec w) : List Byte := leBytes n r.toNat

/-! ## Block fetch (R123) -/

/-- A byte of `IN` as the core sees it: the byte itself, or, where the host rewrote it during the running command, a free
choice among the values it has had since START (R159, U3; log 8). -/
def State.seenByte (s : State) (use : FreeUse) (a : Nat) : Byte :=
  pick use s.freeCtr a (s.inMem.read a) (logged s.inLog a)

/-- A byte of `IN` as the block fetch sees it. -/
def State.fetchByte (s : State) (a : Nat) : Byte := s.seenByte .fetch a

/-- `MemRead(IN:a, n)` (R8). -/
def State.fetchBytes (s : State) (a n : Nat) : List Byte := (List.range n).map fun i => s.fetchByte (a + i)

/-- `BLK <- MemRead(IN:CUR, size)`: the lanes of one block are loaded, the others keep their values (R11, R123). A reserved
code fetches nothing (R58). -/
def State.fetchBlock (s : State) : State :=
  { s with blk := setLanes s.blk (s.fetchBytes s.cur.toNat (codeBytes s.format)) }

/-! ## Texel store (R12, R124) -/

/-- `PATCH <- DEC(...)`: the channel bytes of each texel register are written, its other bytes kept (R12, R111). -/
def State.loadPatch (s : State) (texels : List (List Byte)) : State :=
  { s with patch := Vector.ofFn fun t => setLanes s.patch[t] (texels.getD t []) }

/-- The texel register `PATCH[t]`. -/
def State.texelReg (s : State) (t : Nat) : BitVec 32 := (s.patch[t]?).getD 0

/-- The offset in `OUT` that texel `t = 4·ty + tx` of the current block is stored to, or none where the texel lies outside
the image (R124). -/
def State.texelAddr (s : State) (f : Format) (t : Nat) : Option Nat :=
  let x := 4 * s.bxi.toNat + t % 4
  let y := 4 * s.byi.toNat + t / 4
  if x < s.width.toNat ∧ y < s.height.toNat then some ((y * s.width.toNat + x) * f.chan) else none

/-- The store of one texel: its `chan(f)` bytes, channel 0 lowest, or nothing where it is clipped (R33, R124). -/
def State.storeTexel (s : State) (f : Format) (m : Memory) (t : Nat) : Memory :=
  match s.texelAddr f t with
  | some a => m.writeBytes a (lanes f.chan (s.texelReg t))
  | none => m

/-- The sixteen texel stores of a block step, in raster order (R41, R122). -/
def State.storePatch (s : State) (f : Format) : State :=
  { s with outMem := (List.range 16).foldl (s.storeTexel f) s.outMem }

/-! ## Advance and end of a command (R122, R125) -/

/-- The cursor moves past the block; the counters go to the next block in row-major order, or the command ends (R122,
R125). -/
def State.advance (s : State) (f : Format) : State :=
  let t := { s with cur := s.cur + BitVec.ofNat 65 f.size }
  if s.bxi.toNat + 1 < s.blocksWide then { t with bxi := s.bxi + 1 }
  else if s.byi.toNat + 1 < s.blocksHigh then { t with bxi := 0, byi := s.byi + 1 }
  else { t with status := statusWord false true s.err }

/-- The part of a block step after the decoding: `PATCH` is loaded and stored, the cursor moves (R122). -/
def State.finishBlock (s : State) (f : Format) (texels : List (List Byte)) : State :=
  ((s.loadPatch texels).storePatch f).advance f

/-! ## Command start and error entry (R141, R148) -/

/-- Error entry, `raise E`: ERR takes the code, DONE is 1, BUSY is 0, nothing else changes (R141). -/
def State.raiseError (s : State) (e : ErrorKind) : State :=
  { s with status := statusWord false true e.code }

/-- The first action of the check step: DONE and ERR are cleared (R148). -/
def State.clearResult (s : State) : State :=
  { s with status := statusWord s.busy false 0 }

/-- Acceptance of a command: CUR, BXI, BYI are 0, BUSY is 1 (R148). The model notes the old contents of `OUT` and empties
its logs (logs 7, 8, 9). -/
def State.accept (s : State) : State :=
  { s with cur := 0, bxi := 0, byi := 0, status := statusWord true s.done s.err, outOld := s.outMem, inLog := [],
           outLog := [] }

/-- The checks of dimensions and of length, for a legal format (R137 to R139, R148). -/
def State.checkArgs (s : State) (strict : Bool) (f : Format) : State :=
  if s.width = 0 ∨ s.height = 0 then s.raiseError .invalidDimensions
  else if s.inLen.toNat < s.required f ∨ (s.inLen.toNat ≠ s.required f ∧ strict = true) then s.raiseError .inputTooShort
  else s.accept

end Sys2Proof.Machine
end

