-- ==== Sys2Proof/Machine/AlphaBlock.lean ====
section
/-! DEFINITION. The alpha block decoders: `XBLK` (R96), `APAL` (R99, R100) and `ABLK` (R102). -/
namespace Sys2Proof.Machine

/-- Texel `t` of `XBLK(B)`: its own 4-bit value, expanded (R96). -/
def xblk (x : X64) (t : Nat) : Byte := exp4 (x.xa.getD t 0)

/-- `APAL`, 7-step palette (R99). -/
def apal7 (a : A64) : List Byte :=
  [a.a0, a.a1, interp a.a0 a.a1 1 7, interp a.a0 a.a1 2 7, interp a.a0 a.a1 3 7, interp a.a0 a.a1 4 7,
   interp a.a0 a.a1 5 7, interp a.a0 a.a1 6 7]

/-- `APAL`, 5-step palette with the fixed entries 0 and 255 (R100). -/
def apal5 (a : A64) : List Byte :=
  [a.a0, a.a1, interp a.a0 a.a1 1 5, interp a.a0 a.a1 2 5, interp a.a0 a.a1 3 5, interp a.a0 a.a1 4 5, 0, 255]

/-- `APAL`: the palette is chosen by `A7` (R98, R102). -/
def apal (a : A64) : List Byte := if sevenStep a then apal7 a else apal5 a

/-- Texel `t` of `ABLK(B)`: the palette byte its own index selects (R102). -/
def ablk (a : A64) (t : Nat) : Byte := (apal a).getD (a.aidx.getD t 0).toNat 0

end Sys2Proof.Machine
end

