-- ==== Sys2Proof/Machine/ColorBlock.lean ====
section
/-! DEFINITION. The colour block decoder: `CPAL` and `CBLK` (R85 to R91). -/
namespace Sys2Proof.Machine

/-- `CPAL`, opaque mode: the two endpoints and the two weighted entries, alpha 255 (R87). -/
def cpalOpaque (c : C64) : List Rgba :=
  let p := exp565 c.c0
  let q := exp565 c.c1
  [p.opaqueEntry, q.opaqueEntry, interpRgb p q 1 3, interpRgb p q 2 3]

/-- `CPAL`, punch-through mode: the two endpoints, their average and transparent black (R88). -/
def cpalPunch (bias : Nat) (c : C64) : List Rgba :=
  let p := exp565 c.c0
  let q := exp565 c.c1
  [p.opaqueEntry, q.opaqueEntry, midpointRgb bias p q, { r := 0, g := 0, b := 0, a := 0 }]

/-- `CPAL`: the mode is chosen by `PT` (R86, R90). -/
def cpal (bias : Nat) (allowPt : Bool) (c : C64) : List Rgba :=
  if punchThrough allowPt c then cpalPunch bias c else cpalOpaque c

/-- Texel `t` of `CBLK(B, allow_pt)`: the palette entry its own index selects (R90). -/
def cblk (bias : Nat) (allowPt : Bool) (c : C64) (t : Nat) : Rgba :=
  (cpal bias allowPt c).getD (c.cidx.getD t 0).toNat { r := 0, g := 0, b := 0, a := 0 }

end Sys2Proof.Machine
end

