-- ==== Sys2Proof/Machine/Formats.lean ====
section
/-! DEFINITION. The decode instructions `DEC.BC1` to `DEC.BC5`: the patch of each format (R106 to R110) and the block step
that runs it (R122). -/
namespace Sys2Proof.Machine

/-- Sixteen texels in raster order, from the channel bytes of texel `t`. -/
def texels (texel : Nat → List Byte) : List (List Byte) := (List.range 16).map texel

/-- The patch of a Bc1 block: `[R, G, B, A]`, the alpha implicit in the colour block (R106). -/
def patchBc1 (bias : Nat) (col : C64) : List (List Byte) :=
  texels fun t => let c := cblk bias true col t; [c.r, c.g, c.b, c.a]

/-- The patch of a Bc2 block: colour in opaque mode, explicit alpha (R107). -/
def patchBc2 (alpha : X64) (col : C64) : List (List Byte) :=
  texels fun t => let c := cblk 0 false col t; [c.r, c.g, c.b, xblk alpha t]

/-- The patch of a Bc3 block: colour in opaque mode, interpolated alpha (R108). -/
def patchBc3 (alpha : A64) (col : C64) : List (List Byte) :=
  texels fun t => let c := cblk 0 false col t; [c.r, c.g, c.b, ablk alpha t]

/-- The patch of a Bc4 block: `[V]` (R109). -/
def patchBc4 (chan : A64) : List (List Byte) := texels fun t => [ablk chan t]

/-- The patch of a Bc5 block: `[V0, V1]` (R110). -/
def patchBc5 (chan0 chan1 : A64) : List (List Byte) := texels fun t => [ablk chan0 t, ablk chan1 t]

/-- The patch of an instruction; a reserved code decodes no block (R111). -/
def patchOf (bias : Nat) : Instr → List (List Byte)
  | .rsvd0 => []
  | .decBc1 col => patchBc1 bias col
  | .decBc2 alpha col => patchBc2 alpha col
  | .decBc3 alpha col => patchBc3 alpha col
  | .decBc4 chan => patchBc4 chan
  | .decBc5 chan0 chan1 => patchBc5 chan0 chan1
  | .rsvd6 => []
  | .rsvd7 => []

/-- `DEC(f, blk)` (R111), with the implementation's midpoint bias. -/
def decPatch (f : Format) (blk : List Byte) : List (List Byte) :=
  patchOf Config.midpointBias.val (decodeBlock f blk)

/-- `DEC.BC1`: the block step of a Bc1 block (R106, R122). -/
def execDecBc1 (col : C64) (s : State) : Host.Outcome State Fault Refusal :=
  .next (s.finishBlock .bc1 (patchBc1 Config.midpointBias.val col))

/-- `DEC.BC2`: the block step of a Bc2 block (R107, R122). -/
def execDecBc2 (alpha : X64) (col : C64) (s : State) : Host.Outcome State Fault Refusal :=
  .next (s.finishBlock .bc2 (patchBc2 alpha col))

/-- `DEC.BC3`: the block step of a Bc3 block (R108, R122). -/
def execDecBc3 (alpha : A64) (col : C64) (s : State) : Host.Outcome State Fault Refusal :=
  .next (s.finishBlock .bc3 (patchBc3 alpha col))

/-- `DEC.BC4`: the block step of a Bc4 block (R109, R122). -/
def execDecBc4 (chan : A64) (s : State) : Host.Outcome State Fault Refusal :=
  .next (s.finishBlock .bc4 (patchBc4 chan))

/-- `DEC.BC5`: the block step of a Bc5 block (R110, R122). -/
def execDecBc5 (chan0 chan1 : A64) (s : State) : Host.Outcome State Fault Refusal :=
  .next (s.finishBlock .bc5 (patchBc5 chan0 chan1))

end Sys2Proof.Machine
end

