-- ==== Sys2Proof/Machine/Reserved.lean ====
section
/-! DEFINITION. The reserved FORMAT codes: a command started with one ends with UnsupportedFormat (R58, R136, R141). -/
namespace Sys2Proof.Machine

/-- `RSVD0` (R136). -/
def execRsvd0 (s : State) : Host.Outcome State Fault Refusal := .next (s.raiseError .unsupportedFormat)

/-- `RSVD6`, "Bc6 requested" (R136). -/
def execRsvd6 (s : State) : Host.Outcome State Fault Refusal := .next (s.raiseError .unsupportedFormat)

/-- `RSVD7`, "Bc7 requested" (R136). -/
def execRsvd7 (s : State) : Host.Outcome State Fault Refusal := .next (s.raiseError .unsupportedFormat)

end Sys2Proof.Machine
end

