-- ==== Sys2Proof/Machine/Dispatch.lean ====
section
/-! DEFINITION. The dispatch: one arm per constructor of Instr (R57). -/
namespace Sys2Proof.Machine

def exec (i : Instr) (s : State) : Host.Outcome State Fault Refusal :=
  match i with
  | .rsvd0 => Sys2Proof.Machine.execRsvd0 s
  | .decBc1 col => Sys2Proof.Machine.execDecBc1 col s
  | .decBc2 alpha col => Sys2Proof.Machine.execDecBc2 alpha col s
  | .decBc3 alpha col => Sys2Proof.Machine.execDecBc3 alpha col s
  | .decBc4 chan => Sys2Proof.Machine.execDecBc4 chan s
  | .decBc5 chan0 chan1 => Sys2Proof.Machine.execDecBc5 chan0 chan1 s
  | .rsvd6 => Sys2Proof.Machine.execRsvd6 s
  | .rsvd7 => Sys2Proof.Machine.execRsvd7 s

end Sys2Proof.Machine
end

