-- ==== Sys2Proof/Machine/HostAccess.lean ====
section
/-! DEFINITION. The host's accesses: the register file (R10, R148, R158), the two memories, busy or idle (R45, R159, R160),
and the reset input (R155, R156). -/
namespace Sys2Proof.Machine

/-! ## The register file -/

/-- What a read of a register returns: the value in force, CTRL reads as 0 (R10, R18, R148, R158). -/
def State.readReg (s : State) : Reg → BitVec 64
  | .format => s.format.setWidth 64
  | .width => s.width.setWidth 64
  | .height => s.height.setWidth 64
  | .inLen => s.inLen
  | .ctrl => 0
  | .status => s.status.setWidth 64

/-- The register's index in the register file (R10). -/
def Reg.number : Reg → Nat
  | .format => 0
  | .width => 1
  | .height => 2
  | .inLen => 3
  | .ctrl => 4
  | .status => 5

/-- A read of a register; it has no side effect on the core (R148). -/
def State.hostReadReg (s : State) (r : Reg) : State := { s with rdata := s.readReg r }

/-- A write of `FORMAT`, ignored while busy (R15, R158). -/
def State.hostWriteFormat (s : State) (v : BitVec 3) : State := if s.busy then s else { s with format := v }

/-- A write of `WIDTH`, ignored while busy (R16, R158). -/
def State.hostWriteWidth (s : State) (v : BitVec 32) : State := if s.busy then s else { s with width := v }

/-- A write of `HEIGHT`, ignored while busy (R16, R158). -/
def State.hostWriteHeight (s : State) (v : BitVec 32) : State := if s.busy then s else { s with height := v }

/-- A write of `IN_LEN`, ignored while busy (R17, R158). -/
def State.hostWriteInLen (s : State) (v : BitVec 64) : State := if s.busy then s else { s with inLen := v }

/-! ## What the spec leaves open while a command runs -/

/-- Texel `t` of block `n`, decoded from the bytes that this texel's own choice sees: one of the decodes of the mixtures of
old and new bytes (R45, U3; log 8). -/
def State.mixedTexel (s : State) (f : Format) (n t : Nat) : List Byte :=
  (decPatch f ((List.range f.size).map fun i => s.seenByte (.texel t) (n * f.size + i))).getD t []

/-- `OUT` with the pixels of block `n` stored again where the host rewrote a byte of that block during the running command,
each pixel from its own mixture of old and new bytes; no other block is touched (R159, U3; log 8). -/
def State.mixedOut (s : State) (f : Format) (n : Nat) : Memory :=
  if s.inLog.any (fun c => c.1 / f.size == n) then
    let there := { s with bxi := BitVec.ofNat 30 (n % s.blocksWide), byi := BitVec.ofNat 30 (n / s.blocksWide) }
    ((there.loadPatch (texels (s.mixedTexel f n))).storePatch f).outMem
  else s.outMem

/-- The bytes of `OUT` that the host wrote during the running command: each is overwritten by the command or survives, a
free choice (R160; log 9). Without such a byte nothing changes. -/
def State.settleHostOut (s : State) : State :=
  let settle (m : Memory) (c : Host.Cell) : Memory :=
    m.write c.1 (pick .store s.freeCtr c.1 (m.read c.1) (logged s.outLog c.1))
  { s with outMem := s.outLog.foldl settle s.outMem }

/-- After the stores of block `n`: what the host did to the block's bytes and to `OUT` is settled. A command the host leaves
alone is not changed (R159, R160). -/
def State.settleBlock (s : State) (f : Format) (n : Nat) : State :=
  State.settleHostOut { s with outMem := s.mixedOut f n }

/-- The byte that the running command writes at offset `a` of `OUT`: channel `k` of pixel `(x, y)` (R121). -/
def State.resultByte (s : State) (f : Format) (a : Nat) : Byte :=
  let x := a / f.chan % s.width.toNat
  let y := a / f.chan / s.width.toNat
  (s.mixedTexel f (y / 4 * s.blocksWide + x / 4) (4 * (y % 4) + x % 4)).getD (a % f.chan) 0

/-! ## The output space -/

/-- What a byte of `OUT` below `out_size` may be besides what the list holds, while a command runs: the old byte, the
command's byte, a byte the host wrote (R156, R160). -/
def State.outAlternatives (s : State) (f : Format) (a : Nat) : List Byte :=
  s.outOld.read a :: s.resultByte f a :: logged s.outLog a

/-- What a host read of `OUT` returns: the byte; while a command runs and below `out_size`, the old or the new byte, a free
choice (R42, R160, U2). -/
def State.outByteSeen (s : State) (a : Nat) : Byte :=
  match s.running with
  | none => s.outMem.read a
  | some f =>
    if a < s.outSize f then pick .read s.freeCtr a (s.outMem.read a) (s.outAlternatives f a) else s.outMem.read a

/-- A host read of `OUT` (R23, R160). -/
def State.hostReadOut (s : State) (a : Nat) : State := { s with rdata := (s.outByteSeen a).setWidth 64 }

/-- A host write of `OUT`: the byte; while a command runs and below `out_size` it may be overwritten or survive (R160). -/
def State.hostWriteOut (s : State) (a : Nat) (v : Byte) : State :=
  match s.running with
  | none => { s with outMem := s.outMem.write a v }
  | some f =>
    if a < s.outSize f then State.settleHostOut { s with outLog := (a, v) :: s.outLog }
    else { s with outMem := s.outMem.write a v }

/-! ## The input space -/

/-- The output of a block whose step has already run, done again: in another order of block steps its step would still be
to come, and would see the byte the host has just written (R41, R45, R159; log 8). Only `OUT` changes. -/
def State.redoBlock (s : State) (f : Format) (n : Nat) : State :=
  if n * f.size < s.cur.toNat then s.settleBlock f n else s

/-- A host write of `IN`: the byte; while a command runs and below `required` the command sees it or does not (R159, U3);
at or above `required` it is never read (R36). -/
def State.hostWriteIn (s : State) (a : Nat) (v : Byte) : State :=
  match s.running with
  | none => { s with inMem := s.inMem.write a v }
  | some f =>
    if a < s.required f then
      State.redoBlock { s with inMem := s.inMem.write a v, inLog := (a, s.inMem.read a) :: s.inLog } f (a / f.size)
    else { s with inMem := s.inMem.write a v }

/-! ## The reset input -/

/-- `OUT` after a running command is abandoned: each of the first `n` bytes is old or new, a free choice (R156, U4). -/
def State.abandonOut (s : State) (f : Format) : Nat → Memory
  | 0 => s.outMem
  | n + 1 =>
    (s.abandonOut f n).write n (pick .abandon s.freeCtr n (s.outMem.read n) (s.outAlternatives f n))

/-- Reset: every register at its reset value, `IN` unchanged, `OUT` unchanged or, during a command, unspecified below
`out_size` (R26, R155, R156). What is the host's own stays. -/
def State.hostReset (s : State) : State :=
  { State.reset with
    inMem := s.inMem
    outMem := match s.running with
      | none => s.outMem
      | some f => s.abandonOut f (s.outSize f)
    host := s.host, rdata := s.rdata, freeCtr := s.freeCtr }

end Sys2Proof.Machine
end

