-- ==== Sys2Proof/Machine/Sequencer.lean ====
section
/-! DEFINITION. The sequencer: fetch and run one block (R122), the check step of START (R148), idle (R125, R149), and the
host's next access. -/
namespace Sys2Proof.Machine

/-- Fetch, decode, execute: the block register is loaded from `IN` at the cursor and the instruction that the FORMAT code
and the block register give is run (R111, R122, R123). -/
def fetchExec (s : State) : Host.Outcome State Fault Refusal :=
  let t := s.fetchBlock
  match decode t.format (lanes (codeBytes t.format) t.blk) with
  | .ok (i, _) => exec i t
  | .error _ => .fault .undecodable

/-- A change of the next state, if there is one. -/
def onNext (f : State → State) : Host.Outcome State Fault Refusal → Host.Outcome State Fault Refusal
  | .next s => .next (f s)
  | .fault r => .fault r
  | .refused r => .refused r

/-- After a block step that began in state `before`: what the host did during the command to the bytes of this block and to
`OUT` is settled (R159, R160; logs 8, 9). -/
def State.settleStep (before after : State) : State :=
  match before.running with
  | some f => after.settleBlock f (before.cur.toNat / f.size)
  | none => after

/-- The core's own step: a block step while busy (R122), else nothing (R125, R149). -/
def coreStep (s : State) : Host.Outcome State Fault Refusal :=
  if s.busy then onNext s.settleStep (fetchExec s) else .next s

/-- The check step: DONE and ERR are cleared; a reserved code runs its row of the opcode table (R136), a legal one has its
arguments checked (R148). -/
def checkStep (s : State) : Host.Outcome State Fault Refusal :=
  match formatOf s.format with
  | none => fetchExec s.clearResult
  | some f => .next (s.clearResult.checkArgs Config.strictLength f)

/-- A write of CTRL: START = 1 runs the check step when the core is idle; writing 0, or 1 while busy, has no effect (R18,
R148, R161). -/
def writeCtrl (v : BitVec 1) (s : State) : Host.Outcome State Fault Refusal :=
  if v = 0 ∨ s.busy = true then .next s else checkStep s

/-- One access of the host. -/
def hostStep (op : HostOp) (s : State) : Host.Outcome State Fault Refusal :=
  match op with
  | .pass => coreStep s
  | .writeFormat v => .next (s.hostWriteFormat v)
  | .writeWidth v => .next (s.hostWriteWidth v)
  | .writeHeight v => .next (s.hostWriteHeight v)
  | .writeInLen v => .next (s.hostWriteInLen v)
  | .writeCtrl v => writeCtrl v s
  | .readReg r => .next (s.hostReadReg r)
  | .writeIn a v => .next (s.hostWriteIn a v)
  | .writeOut a v => .next (s.hostWriteOut a v)
  | .readOut a => .next (s.hostReadOut a)
  | .reset => .next s.hostReset

/-- The oldest pending access is taken: the rest stays pending and the counter of the free choices advances (logs 1, 6). -/
def State.popHost (s : State) (rest : List HostOp) : State :=
  { s with host := rest, freeCtr := s.freeCtr + 1 }

/-- One step: the host's oldest pending access, or, with none pending, the core's own step (log 1). -/
def machineStep (s : State) : Host.Outcome State Fault Refusal :=
  match s.host with
  | [] => coreStep s
  | op :: rest => hostStep op (s.popHost rest)

/-- A state about to take a block step on a block of zeros or of the given bytes: an accepted 4 × 4 command of format `f`
whose input is the block (log 10). -/
def State.placeBlock (s : State) (f : Format) (block : List Byte) : State :=
  { s with format := f.code, width := 4, height := 4, inLen := BitVec.ofNat 64 f.size, status := statusWord true false 0,
           cur := 0, bxi := 0, byi := 0, inMem := s.inMem.writeBytes 0 (block.take f.size), host := [],
           outOld := s.outMem, inLog := [], outLog := [] }

/-- A state about to take the check step of a command with the given FORMAT code: idle, with START pending (log 10). -/
def State.placeStart (s : State) (code : BitVec 3) : State :=
  { s with format := code, status := 0, host := [.writeCtrl 1] }

end Sys2Proof.Machine
end

