-- ==== Sys2Proof/Machine/Step.lean ====
section
/-! DEFINITION. The step of the machine, and the placing of an instruction where the next step runs it. -/
namespace Sys2Proof.Machine

/-- One step of the machine. -/
def step (s : State) : Host.Outcome State Fault Refusal := machineStep s

/-- `s` with the instruction whose bits are `w` where the next step fetches it: a block under an accepted command, or a
reserved code under a pending START (log 10). -/
def State.withFetchWord (s : State) (nbits w : Nat) : State :=
  match formatOf (tableCode w) with
  | some f => s.placeBlock f (tableOperand nbits w)
  | none => s.placeStart (tableCode w)

end Sys2Proof.Machine
end

