-- ==== Sys2Proof/Safety.lean ====
section
/-! DEFINITION. What counts as a safe state, in the terms the statements use: the invariant of the machine and its parts, and
what a byte of OUT may hold while a command runs. -/
namespace Sys2Proof.Machine

/-- The three memories are in canonical form. -/
structure State.MemoriesOk (s : State) : Prop where
  inOk : s.inMem.wf
  outOk : s.outMem.wf
  oldOk : s.outOld.wf

/-- The invariants of STATUS: BUSY and DONE are never both 1, a non-zero ERR implies DONE (R19). -/
structure State.StatusOk (s : State) : Prop where
  notBoth : ¬ (s.busy = true ∧ s.done = true)
  errDone : s.err ≠ 0 → s.done = true

/-- What holds of a state with a command of format `f` running, before each of its block steps (R122, R138). -/
structure State.CommandOk (s : State) (f : Format) : Prop where
  legal : formatOf s.format = some f
  wide : s.width ≠ 0
  high : s.height ≠ 0
  long : s.required f ≤ s.inLen.toNat
  column : s.bxi.toNat < s.blocksWide
  row : s.byi.toNat < s.blocksHigh
  cursor : s.cur.toNat = (s.byi.toNat * s.blocksWide + s.bxi.toNat) * f.size

/-- The invariant of the machine: it holds at reset and every step keeps it. -/
structure State.Inv (s : State) : Prop where
  memories : s.MemoriesOk
  statusOk : s.StatusOk
  command : s.busy = true → ∃ f, s.CommandOk f

/-! ## What OUT may hold while a command runs -/

/-- The block that pixel `(x, y)` belongs to, in row-major order (R127). -/
def State.blockOf (s : State) (x y : Nat) : Nat := y / 4 * s.blocksWide + x / 4

/-- The offset in OUT of channel `k` of pixel `(x, y)` (R33). -/
def State.pixelByte (s : State) (f : Format) (x y k : Nat) : Nat := (y * s.width.toNat + x) * f.chan + k

/-- Channel `k` of pixel `(x, y)` decoded from the bytes of its block (R121). -/
def decodedByte (f : Format) (bs : List Byte) (x y k : Nat) : Byte :=
  ((decPatch f bs).getD (4 * (y % 4) + x % 4) []).getD k 0

/-- A mixture of old and new bytes of block `n`: each byte is the one IN holds or one it has held since START (R45, U3). For
a block the host has not rewritten it is the block itself. -/
def State.Mixture (s : State) (f : Format) (n : Nat) (bs : List Byte) : Prop :=
  bs.length = f.size ∧
  ∀ i, i < f.size → bs.getD i 0 ∈ s.inMem.read (n * f.size + i) :: logged s.inLog (n * f.size + i)

/-- What channel `k` of pixel `(x, y)` may hold while a command runs: the old byte, the new byte (decoded from some mixture of
its block), or a byte the host wrote there during the command (R156, R160). -/
def State.OldNewOrHost (s : State) (f : Format) (x y k : Nat) (b : Byte) : Prop :=
  b = s.outOld.read (s.pixelByte f x y k) ∨
  (∃ bs, s.Mixture f (s.blockOf x y) bs ∧ b = decodedByte f bs x y k) ∨
  b ∈ logged s.outLog (s.pixelByte f x y k)

/-- While a command runs, every byte of the image in OUT is the old byte, the new byte or one the host wrote there. -/
def State.OutBytesOk (s : State) : Prop :=
  ∀ f, s.running = some f → ∀ x y k, x < s.width.toNat → y < s.height.toNat → k < f.chan →
    s.OldNewOrHost f x y k (s.outMem.read (s.pixelByte f x y k))

end Sys2Proof.Machine
end

