-- ==== Sys2Proof/Certificates/Slice0/Obligations.lean ====
section
/-! DEFINITION. The statements for the provers. Each docstring names the rules of the spec it formalises. -/

open Sys2Proof Sys2Proof.Machine

/-! ## Encoding -/

/-- R57: the operation of each of the eight FORMAT codes, and no code has two rows. -/
def Obligations.OpcodeMapIsTotal : Prop :=
  lookupOp 0 = some .rsvd0 ∧ lookupOp 1 = some (.dec .bc1) ∧ lookupOp 2 = some (.dec .bc2) ∧
  lookupOp 3 = some (.dec .bc3) ∧ lookupOp 4 = some (.dec .bc4) ∧ lookupOp 5 = some (.dec .bc5) ∧
  lookupOp 6 = some .rsvd6 ∧ lookupOp 7 = some .rsvd7 ∧
  ∀ code : BitVec 3, (opTable.filter fun r => r.matches code).length = 1

/-- R52 to R55, R62: decoding the words of a well-formed instruction gives it back, and the rest of the stream. (The layout
rests on the spec's readings D6, D7, D8, log 16.) -/
def Obligations.DecodeOfEncode : Prop :=
  ∀ (i : Instr) (rest : List Byte), i.wf = true → decode i.code (i.block ++ rest) = .ok (i, rest)

/-- R59, R60: what the decoder reads is well formed and encodes to exactly the bytes read: every bit of a block is used by
exactly one field. (The layout rests on the spec's readings D6, D7, D8, log 16.) -/
def Obligations.EncodeOfDecode : Prop :=
  ∀ (code : BitVec 3) (stream rest : List Byte) (i : Instr), decode code stream = .ok (i, rest) →
    i.wf = true ∧ i.code = code ∧ i.block ++ rest = stream

/-- R59, R50: no block is illegal; the decoder rejects a stream exactly when a legal code finds less than one block in it. -/
def Obligations.DecodeRejectsOnlyShortStreams : Prop :=
  ∀ (code : BitVec 3) (stream : List Byte) (e : DecodeError),
    decode code stream = .error e ↔
      e = .truncatedBlock ∧ ∃ f, formatOf code = some f ∧ stream.length < f.size

/-- R62, 95_test_vectors.md: words written out from the spec's encoding decode to the instructions they stand for.
The Bc2 word has its alpha half first, which is the spec's reading D6 (R55), and the order of its nibbles and of the Bc4 word's
indices is D8 (R53, R54), both of log 16. -/
def Obligations.SpecWordsDecode : Prop :=
  decode 1 [0x00, 0xF8, 0x1F, 0x00, 0xE4, 0xE4, 0xE4, 0xE4] =
    .ok (.decBc1 ⟨0xF800, 0x001F, [0, 1, 2, 3, 0, 1, 2, 3, 0, 1, 2, 3, 0, 1, 2, 3]⟩, []) ∧
  decode 4 [0xC8, 0x64, 0x88, 0xC6, 0xFA, 0x77, 0x39, 0x05] =
    .ok (.decBc4 ⟨200, 100, [0, 1, 2, 3, 4, 5, 6, 7, 7, 6, 5, 4, 3, 2, 1, 0]⟩, []) ∧
  decode 2 ([0x10, 0x32, 0x54, 0x76, 0x98, 0xBA, 0xDC, 0xFE] ++ [0x1F, 0x00, 0x00, 0xF8, 0xE4, 0xE4, 0xE4, 0xE4]) =
    .ok (.decBc2 ⟨[0, 1, 2, 3, 4, 5, 6, 7, 8, 9, 10, 11, 12, 13, 14, 15]⟩
      ⟨0x001F, 0xF800, [0, 1, 2, 3, 0, 1, 2, 3, 0, 1, 2, 3, 0, 1, 2, 3]⟩, []) ∧
  decode 7 [0xAA] = .ok (.rsvd7, [0xAA])

/-- R70: both formulas of `FIELD`, and its two worked values. R70 gives them for fields inside the block; beyond it a bit
reads as 0, which is the model's choice (log 13, R71, D28). -/
def Obligations.FieldReadsContiguousBits : Prop :=
  (∀ (bs : List Byte) (off w : Nat),
    (field bs off w).toNat = (blockValue bs >>> off) % 2 ^ w ∧
    ∀ j, j < w → (field bs off w).getLsbD j = (bs.getD ((off + j) / 8) 0).getLsbD ((off + j) % 8)) ∧
  field [0x01, 0x23, 0x45, 0x67, 0x89, 0xAB, 0xCD, 0xEF] 0 16 = 0x2301 ∧
  field [0x01, 0x23, 0x45, 0x67, 0x89, 0xAB, 0xCD, 0xEF] 22 3 = 5

/-- R73: overlapping reads are consistent. -/
def Obligations.FieldSplitsIntoParts : Prop :=
  ∀ (bs : List Byte) (off w1 w2 : Nat),
    (field bs off (w1 + w2)).toNat = (field bs off w1).toNat + (field bs (off + w1) w2).toNat <<< w1

/-! ## Operands -/

/-- R75, R76, R95, R82: the expansions by bit replication, their tables, and the round trip. -/
def Obligations.ExpansionsReplicateBits : Prop :=
  (List.range 32).map (fun v => (exp5 (BitVec.ofNat 5 v)).toNat) =
    [0, 8, 16, 24, 33, 41, 49, 57, 66, 74, 82, 90, 99, 107, 115, 123, 132, 140, 148, 156, 165, 173, 181, 189, 198, 206,
     214, 222, 231, 239, 247, 255] ∧
  (List.range 64).map (fun v => (exp6 (BitVec.ofNat 6 v)).toNat) =
    [0, 4, 8, 12, 16, 20, 24, 28, 32, 36, 40, 44, 48, 52, 56, 60, 65, 69, 73, 77, 81, 85, 89, 93, 97, 101, 105, 109, 113,
     117, 121, 125, 130, 134, 138, 142, 146, 150, 154, 158, 162, 166, 170, 174, 178, 182, 186, 190, 195, 199, 203, 207,
     211, 215, 219, 223, 227, 231, 235, 239, 243, 247, 251, 255] ∧
  (∀ v : BitVec 5, (exp5 v).toNat = (v.toNat <<< 3 ||| v.toNat >>> 2) ∧ (exp5 v).toNat >>> 3 = v.toNat) ∧
  (∀ v : BitVec 6, (exp6 v).toNat = (v.toNat <<< 2 ||| v.toNat >>> 4) ∧ (exp6 v).toNat >>> 2 = v.toNat) ∧
  ∀ v : BitVec 4, (exp4 v).toNat = 17 * v.toNat ∧ (exp4 v).toNat >>> 4 = v.toNat

/-- R77: red is bits 15:11, green 10:5, blue 4:0 of an endpoint, each expanded (the positions are D5, log 16);
the corner values. -/
def Obligations.EndpointSplitsInto565 : Prop :=
  (∀ c : BitVec 16,
    (exp565 c).r = exp5 (BitVec.ofNat 5 (c.toNat / 2 ^ 11)) ∧
    (exp565 c).g = exp6 (BitVec.ofNat 6 (c.toNat / 2 ^ 5)) ∧
    (exp565 c).b = exp5 (BitVec.ofNat 5 c.toNat)) ∧
  exp565 0x0000 = ⟨0, 0, 0⟩ ∧ exp565 0xFFFF = ⟨255, 255, 255⟩ ∧ exp565 0xF800 = ⟨255, 0, 0⟩ ∧
  exp565 0x07E0 = ⟨0, 255, 0⟩ ∧ exp565 0x001F = ⟨0, 0, 255⟩ ∧ exp565 0x1234 = ⟨16, 69, 165⟩

/-- R78, R81: the value of `INTERP`, its corner cases, the exchange law, and that it stays between the endpoints. -/
def Obligations.InterpStaysBetweenEndpoints : Prop :=
  ∀ (c0 c1 : Byte) (num den : Nat), num ≤ den → 1 ≤ den →
    (interp c0 c1 num den).toNat = (c0.toNat * (den - num) + c1.toNat * num + den / 2) / den ∧
    min c0.toNat c1.toNat ≤ (interp c0 c1 num den).toNat ∧ (interp c0 c1 num den).toNat ≤ max c0.toNat c1.toNat ∧
    interp c0 c0 num den = c0 ∧ interp c0 c1 0 den = c0 ∧ interp c0 c1 den den = c1 ∧
    interp c0 c1 num den = interp c1 c0 (den - num) den

/-! ## Colour and alpha palettes -/

/-- R86: punch-through mode is the unsigned comparison `c0 ≤ c1` of the raw words, in Bc1 only. -/
def Obligations.PunchThroughByComparison : Prop :=
  ∀ c : C64, (punchThrough true c = true ↔ c.c0.toNat ≤ c.c1.toNat) ∧ punchThrough false c = false

/-- R87, R79: the opaque palette, wherever punch-through mode does not hold (the order of the weights is D9, log 16). -/
def Obligations.OpaquePaletteEntries : Prop :=
  ∀ (bias : Nat) (allowPt : Bool) (c : C64), punchThrough allowPt c = false →
    let p := exp565 c.c0
    let q := exp565 c.c1
    (cpal bias allowPt c).map (fun e => [e.r.toNat, e.g.toNat, e.b.toNat, e.a.toNat]) =
      [[p.r.toNat, p.g.toNat, p.b.toNat, 255],
       [q.r.toNat, q.g.toNat, q.b.toNat, 255],
       [(2 * p.r.toNat + q.r.toNat + 1) / 3, (2 * p.g.toNat + q.g.toNat + 1) / 3, (2 * p.b.toNat + q.b.toNat + 1) / 3, 255],
       [(p.r.toNat + 2 * q.r.toNat + 1) / 3, (p.g.toNat + 2 * q.g.toNat + 1) / 3, (p.b.toNat + 2 * q.b.toNat + 1) / 3, 255]]

/-- R88: the punch-through palette, for either value of the OPEN bias. -/
def Obligations.PunchThroughPaletteEntries : Prop :=
  ∀ (bias : Nat) (c : C64), bias ≤ 1 → c.c0.toNat ≤ c.c1.toNat →
    let p := exp565 c.c0
    let q := exp565 c.c1
    (cpal bias true c).map (fun e => [e.r.toNat, e.g.toNat, e.b.toNat, e.a.toNat]) =
      [[p.r.toNat, p.g.toNat, p.b.toNat, 255],
       [q.r.toNat, q.g.toNat, q.b.toNat, 255],
       [(p.r.toNat + q.r.toNat + bias) / 2, (p.g.toNat + q.g.toNat + bias) / 2, (p.b.toNat + q.b.toNat + bias) / 2, 255],
       [0, 0, 0, 0]]

/-- R98, R99: the 7-step alpha palette when `a0 > a1` (the order of the weights is D9, log 16). -/
def Obligations.SevenStepPaletteEntries : Prop :=
  ∀ a : A64, a.a0.toNat > a.a1.toNat →
    (apal a).map BitVec.toNat =
      [a.a0.toNat, a.a1.toNat, (6 * a.a0.toNat + 1 * a.a1.toNat + 3) / 7, (5 * a.a0.toNat + 2 * a.a1.toNat + 3) / 7,
       (4 * a.a0.toNat + 3 * a.a1.toNat + 3) / 7, (3 * a.a0.toNat + 4 * a.a1.toNat + 3) / 7,
       (2 * a.a0.toNat + 5 * a.a1.toNat + 3) / 7, (1 * a.a0.toNat + 6 * a.a1.toNat + 3) / 7]

/-- R98, R100: the 5-step alpha palette when `a0 ≤ a1`, with the fixed entries 0 and 255 (the order of the weights is
D9, log 16). -/
def Obligations.FiveStepPaletteEntries : Prop :=
  ∀ a : A64, a.a0.toNat ≤ a.a1.toNat →
    (apal a).map BitVec.toNat =
      [a.a0.toNat, a.a1.toNat, (4 * a.a0.toNat + 1 * a.a1.toNat + 2) / 5, (3 * a.a0.toNat + 2 * a.a1.toNat + 2) / 5,
       (2 * a.a0.toNat + 3 * a.a1.toNat + 2) / 5, (1 * a.a0.toNat + 4 * a.a1.toNat + 2) / 5, 0, 255]

/-! ## The decode instructions -/

/-- R106, R85, R89, R90: a Bc1 block is one colour sub-block. DEC.BC1 answers a next state in which every texel register
holds the palette entry its own index selects; alpha is 0 exactly for index 3 with `c0 ≤ c1`, and then the texel is black;
else alpha is 255. -/
def Obligations.DecBc1WritesPatch : Prop :=
  (∀ blk : List Byte, blk.length = 8 → decode 1 blk = .ok (.decBc1
    ⟨field blk 0 16, field blk 16 16, (List.range 16).map fun t => field blk (32 + 2 * t) 2⟩, [])) ∧
  ∀ (col : C64) (s : State), ∃ t, exec (.decBc1 col) s = .next t ∧
    ∀ n, n < 16 → ∃ c, (cpal Config.midpointBias.val true col)[(col.cidx.getD n 0).toNat]? = some c ∧
      lanes 4 (t.texelReg n) = [c.r, c.g, c.b, c.a] ∧
      (if col.cidx.getD n 0 = 3 ∧ col.c0.toNat ≤ col.c1.toNat then c = ⟨0, 0, 0, 0⟩ else c.a = 255)

/-- R107, R96: bytes 0 to 7 of a Bc2 block are the alpha sub-block, bytes 8 to 15 the colour sub-block (the order of the
halves is D6, log 16). DEC.BC2 answers a next state in which every texel register holds the colour of the opaque palette,
whatever the endpoints, and the texel's own 4-bit alpha expanded. -/
def Obligations.DecBc2WritesPatch : Prop :=
  (∀ lo hi : List Byte, lo.length = 8 → hi.length = 8 → decode 2 (lo ++ hi) = .ok (.decBc2
    ⟨(List.range 16).map fun t => field lo (4 * t) 4⟩
    ⟨field hi 0 16, field hi 16 16, (List.range 16).map fun t => field hi (32 + 2 * t) 2⟩, [])) ∧
  ∀ (alpha : X64) (col : C64) (s : State), ∃ t, exec (.decBc2 alpha col) s = .next t ∧
    ∀ n, n < 16 → ∃ c, (cpalOpaque col)[(col.cidx.getD n 0).toNat]? = some c ∧
      lanes 4 (t.texelReg n) = [c.r, c.g, c.b, exp4 (alpha.xa.getD n 0)]

/-- R108, R102: bytes 0 to 7 of a Bc3 block are the alpha sub-block, bytes 8 to 15 the colour sub-block (the order of the
halves is D6, log 16). DEC.BC3 answers a next state in which every texel register holds the colour of the opaque palette,
whatever the endpoints, and the alpha palette byte its own index selects. -/
def Obligations.DecBc3WritesPatch : Prop :=
  (∀ lo hi : List Byte, lo.length = 8 → hi.length = 8 → decode 3 (lo ++ hi) = .ok (.decBc3
    ⟨field lo 0 8, field lo 8 8, (List.range 16).map fun t => field lo (16 + 3 * t) 3⟩
    ⟨field hi 0 16, field hi 16 16, (List.range 16).map fun t => field hi (32 + 2 * t) 2⟩, [])) ∧
  ∀ (alpha : A64) (col : C64) (s : State), ∃ t, exec (.decBc3 alpha col) s = .next t ∧
    ∀ n, n < 16 → ∃ c v, (cpalOpaque col)[(col.cidx.getD n 0).toNat]? = some c ∧
      (apal alpha)[(alpha.aidx.getD n 0).toNat]? = some v ∧ lanes 4 (t.texelReg n) = [c.r, c.g, c.b, v]

/-- R109, R97, R101, R12: a Bc4 block is one interpolated alpha sub-block, its indices in raster order (R54, D8, log 16).
DEC.BC4 answers a next state in which the low byte of every texel register is the palette byte its own index selects and the
upper bytes are as before. -/
def Obligations.DecBc4WritesPatch : Prop :=
  (∀ blk : List Byte, blk.length = 8 → decode 4 blk = .ok (.decBc4
    ⟨field blk 0 8, field blk 8 8, (List.range 16).map fun t => field blk (16 + 3 * t) 3⟩, [])) ∧
  ∀ (chan : A64) (s : State), ∃ t, exec (.decBc4 chan) s = .next t ∧
    ∀ n, n < 16 → ∃ v, (apal chan)[(chan.aidx.getD n 0).toNat]? = some v ∧ lanes 1 (t.texelReg n) = [v] ∧
      (t.texelReg n).toNat / 2 ^ 8 = (s.texelReg n).toNat / 2 ^ 8

/-- R110, R12: bytes 0 to 7 of a Bc5 block are the first channel's sub-block, bytes 8 to 15 the second's (D7, log 16).
DEC.BC5 answers a next state in which the two low bytes of every texel register are the palette bytes that its indices in
the two sub-blocks select, each sub-block with its own palette; the upper bytes are as before. -/
def Obligations.DecBc5WritesPatch : Prop :=
  (∀ lo hi : List Byte, lo.length = 8 → hi.length = 8 → decode 5 (lo ++ hi) = .ok (.decBc5
    ⟨field lo 0 8, field lo 8 8, (List.range 16).map fun t => field lo (16 + 3 * t) 3⟩
    ⟨field hi 0 8, field hi 8 8, (List.range 16).map fun t => field hi (16 + 3 * t) 3⟩, [])) ∧
  ∀ (chan0 chan1 : A64) (s : State), ∃ t, exec (.decBc5 chan0 chan1) s = .next t ∧
    ∀ n, n < 16 → ∃ v0 v1, (apal chan0)[(chan0.aidx.getD n 0).toNat]? = some v0 ∧
      (apal chan1)[(chan1.aidx.getD n 0).toNat]? = some v1 ∧ lanes 2 (t.texelReg n) = [v0, v1] ∧
      (t.texelReg n).toNat / 2 ^ 16 = (s.texelReg n).toNat / 2 ^ 16

/-- R111: the channel halves are independent (which half is which is D6 and D7, log 16). Two blocks that agree on bytes 8 to
15 have the same colour in Bc2 and Bc3 and the same second channel in Bc5; two that agree on bytes 0 to 7 have the same
alpha, or the same first channel. -/
def Obligations.BlockHalvesAreIndependent : Prop :=
  ∀ (lo lo' hi hi' : List Byte) (t : Nat), lo.length = 8 → lo'.length = 8 → hi.length = 8 → hi'.length = 8 → t < 16 →
    (∀ f, f = Format.bc2 ∨ f = Format.bc3 →
      ((decPatch f (lo ++ hi)).getD t []).take 3 = ((decPatch f (lo' ++ hi)).getD t []).take 3 ∧
      ((decPatch f (lo ++ hi)).getD t []).drop 3 = ((decPatch f (lo ++ hi')).getD t []).drop 3) ∧
    ((decPatch .bc5 (lo ++ hi)).getD t []).take 1 = ((decPatch .bc5 (lo ++ hi')).getD t []).take 1 ∧
    ((decPatch .bc5 (lo ++ hi)).getD t []).drop 1 = ((decPatch .bc5 (lo' ++ hi)).getD t []).drop 1

/-! ## The block step -/

/-- R124, R33: a block step stores exactly its in-bounds texels, each at the offset of its pixel with channel 0 lowest, and
leaves every other byte of OUT. The stored bytes are those of the texel register after the step. -/
def Obligations.BlockStepStoresInBoundsTexels : Prop :=
  ∀ (i : Instr) (f : Format) (s : State), formatOf i.code = some f → ∃ t, exec i s = .next t ∧
    (∀ tx ty, tx < 4 → ty < 4 →
      4 * s.bxi.toNat + tx < s.width.toNat → 4 * s.byi.toNat + ty < s.height.toNat → ∀ k, k < f.chan →
      t.outMem.read (((4 * s.byi.toNat + ty) * s.width.toNat + (4 * s.bxi.toNat + tx)) * f.chan + k) =
        (lanes f.chan (t.texelReg (4 * ty + tx))).getD k 0) ∧
    ∀ o, (∀ n, n < 16 → ∀ a, s.texelAddr f n = some a → o < a ∨ a + f.chan ≤ o) →
      t.outMem.read o = s.outMem.read o

/-- R122, R125, R13: a block step advances the cursor by one block and goes to the next block in row-major order; the last
one ends the command with BUSY 0, DONE 1, ERR as it was, and leaves the counters. -/
def Obligations.BlockStepAdvances : Prop :=
  ∀ (i : Instr) (f : Format) (s : State), formatOf i.code = some f → ∃ t, exec i s = .next t ∧
    t.cur = s.cur + BitVec.ofNat 65 f.size ∧
    if s.bxi.toNat + 1 < (s.width.toNat + 3) / 4 then
      t.bxi.toNat = s.bxi.toNat + 1 ∧ t.byi = s.byi ∧ t.status = s.status
    else if s.byi.toNat + 1 < (s.height.toNat + 3) / 4 then
      t.bxi = 0 ∧ t.byi.toNat = s.byi.toNat + 1 ∧ t.status = s.status
    else t.bxi = s.bxi ∧ t.byi = s.byi ∧ t.busy = false ∧ t.done = true ∧ t.err = s.err

/-- R129, R20, R11: the frame of a block step. It leaves FORMAT, WIDTH, HEIGHT, IN_LEN, BLK, IN, ERR and what is the model's
own; it writes PATCH, OUT, CUR, BXI, BYI, BUSY and DONE only. -/
def Obligations.BlockStepFrame : Prop :=
  ∀ (i : Instr) (f : Format) (s t : State), formatOf i.code = some f → exec i s = .next t →
    t.format = s.format ∧ t.width = s.width ∧ t.height = s.height ∧ t.inLen = s.inLen ∧ t.blk = s.blk ∧
    t.inMem = s.inMem ∧ t.err = s.err ∧ t.host = s.host ∧ t.rdata = s.rdata ∧ t.freeCtr = s.freeCtr ∧
    t.outOld = s.outOld ∧ t.inLog = s.inLog ∧ t.outLog = s.outLog

/-- R136, R141: a reserved code leaves STATUS with BUSY 0, DONE 1, ERR 2 and changes nothing else. -/
def Obligations.ReservedCodesEndUnsupported : Prop :=
  ∀ (i : Instr) (s : State), i = .rsvd0 ∨ i = .rsvd6 ∨ i = .rsvd7 → exec i s = .next { s with status := 0b1010 }

/-! ## Fetch and step -/

/-- R123, R11: the fetch loads byte `CUR + i` of IN, as the command sees it, into lane `i` of BLK for the lanes of one block,
and keeps the other lanes; a byte the host did not rewrite during the command is the byte of IN (log 8). -/
def Obligations.FetchLoadsBlockRegister : Prop :=
  ∀ (s : State) (f : Format), formatOf s.format = some f →
    (∀ i, i < f.size → (lanes 16 s.fetchBlock.blk).getD i 0 = s.fetchByte (s.cur.toNat + i)) ∧
    (∀ i, f.size ≤ i → i < 16 → (lanes 16 s.fetchBlock.blk).getD i 0 = (lanes 16 s.blk).getD i 0) ∧
    ∀ a, (∀ c ∈ s.inLog, c.1 ≠ a) → s.fetchByte a = s.inMem.read a

/-- R111, R122, R123: while BUSY, with no host access pending, a step runs the instruction that the FORMAT code and the
bytes at the cursor decode to, on the state whose BLK the fetch has loaded; after it, what the host did to this block's bytes
of IN and to OUT during the command is settled (R159, R160, logs 8, 9), and where the host did neither the step is the
instruction alone. With the access `pass` the same step is taken on the state the access is removed from. -/
def Obligations.StepRunsDecodedBlock : Prop :=
  ∀ (s : State) (f : Format) (i : Instr), s.busy = true → formatOf s.format = some f →
    decode s.format (s.fetchBytes s.cur.toNat f.size) = .ok (i, []) →
    lanes f.size s.fetchBlock.blk = s.fetchBytes s.cur.toNat f.size ∧
    (s.host = [] → step s = onNext s.settleStep (exec i s.fetchBlock)) ∧
    (s.host = [] → s.outLog = [] → (∀ c ∈ s.inLog, c.1 / f.size ≠ s.cur.toNat / f.size) →
      step s = exec i s.fetchBlock) ∧
    ∀ u rest, u.host = .pass :: rest → u.popHost rest = s → step u = onNext s.settleStep (exec i s.fetchBlock)

/-- R136, R148: START on an idle core with a reserved code runs that code's row of the opcode table, DONE and ERR cleared
first. -/
def Obligations.StepRunsReservedCode : Prop :=
  ∀ (s : State) (rest : List HostOp) (i : Instr), s.host = .writeCtrl 1 :: rest → s.busy = false →
    decode s.format [] = .ok (i, []) → step s = exec i (s.popHost rest).clearResult

/-- R125, R149: the idle core, with no host access pending (log 1), does nothing. -/
def Obligations.IdleStepChangesNothing : Prop :=
  ∀ s : State, s.host = [] → s.busy = false → step s = .next s

/-- R140, R112, R59: no step faults or is refused, in any state. -/
def Obligations.StepAlwaysAnswersNext : Prop := ∀ s : State, ∃ t, step s = .next t

/-! ## Commands -/

/-- R148, R136 to R139, R141: the check step of START on an idle core: the four outcomes, in order of priority, and all that
each changes (`outOld`, `inLog` and `outLog` are the model's own, logs 7, 8, 9). -/
def Obligations.StartRunsCheckStep : Prop :=
  ∀ (s : State) (rest : List HostOp), s.host = .writeCtrl 1 :: rest → s.busy = false →
    (s.format = 0 ∨ s.format = 6 ∨ s.format = 7 → step s = .next { s.popHost rest with status := 0b1010 }) ∧
    ∀ f : Format, s.format = f.code →
      let required := (s.width.toNat + 3) / 4 * ((s.height.toNat + 3) / 4) * f.size
      if s.width = 0 ∨ s.height = 0 then step s = .next { s.popHost rest with status := 0b1110 }
      else if s.inLen.toNat < required ∨ (Config.strictLength = true ∧ s.inLen.toNat ≠ required) then
        step s = .next { s.popHost rest with status := 0b0110 }
      else step s = .next { s.popHost rest with
        cur := 0, bxi := 0, byi := 0, status := 0b0001, outOld := s.outMem, inLog := [], outLog := [] }

/-- R161, R18: a write of 1 to START while BUSY, and a write of 0 at any time, have no effect. -/
def Obligations.CtrlWriteWithoutEffect : Prop :=
  ∀ (s : State) (rest : List HostOp) (v : BitVec 1), s.host = .writeCtrl v :: rest → s.busy = true ∨ v = 0 →
    step s = .next (s.popHost rest)

/-- R158: while BUSY a write of a configuration register is ignored; a read, at any time, returns the value in force. -/
def Obligations.ConfigurationFrozenWhileBusy : Prop :=
  ∀ (s : State) (rest : List HostOp),
    (s.busy = true → ∀ op, s.host = op :: rest →
      (∃ v, op = .writeFormat v) ∨ (∃ v, op = .writeWidth v) ∨ (∃ v, op = .writeHeight v) ∨ (∃ v, op = .writeInLen v) →
      step s = .next (s.popHost rest)) ∧
    (s.host = .readReg .format :: rest → step s = .next { s.popHost rest with rdata := s.format.setWidth 64 }) ∧
    (s.host = .readReg .width :: rest → step s = .next { s.popHost rest with rdata := s.width.setWidth 64 }) ∧
    (s.host = .readReg .height :: rest → step s = .next { s.popHost rest with rdata := s.height.setWidth 64 }) ∧
    (s.host = .readReg .inLen :: rest → step s = .next { s.popHost rest with rdata := s.inLen })

/-- R15, R16, R17, R148: on an idle core a write of a configuration register puts the value there and changes nothing else. -/
def Obligations.ConfigurationWritesWhenIdle : Prop :=
  ∀ (s : State) (rest : List HostOp), s.busy = false →
    (∀ v, s.host = .writeFormat v :: rest → step s = .next { s.popHost rest with format := v }) ∧
    (∀ v, s.host = .writeWidth v :: rest → step s = .next { s.popHost rest with width := v }) ∧
    (∀ v, s.host = .writeHeight v :: rest → step s = .next { s.popHost rest with height := v }) ∧
    ∀ v, s.host = .writeInLen v :: rest → step s = .next { s.popHost rest with inLen := v }

/-- R19, R18, R148: a read of STATUS returns BUSY in bit 0, DONE in bit 1 and ERR in bits 3:2, a read of CTRL returns 0, and
neither has a side effect. -/
def Obligations.StatusAndCtrlReads : Prop :=
  ∀ (s : State) (rest : List HostOp),
    (s.host = .readReg .status :: rest → ∃ t, step s = .next t ∧ t = { s.popHost rest with rdata := t.rdata } ∧
      t.rdata.toNat = s.busy.toNat + 2 * s.done.toNat + 4 * s.err.toNat) ∧
    (s.host = .readReg .ctrl :: rest → step s = .next { s.popHost rest with rdata := 0 })

/-- R142, R20: on an idle core DONE and ERR keep their values through every step that is neither a START nor a reset. -/
def Obligations.ResultKeptUntilNextStart : Prop :=
  ∀ s t : State, s.busy = false → (∀ rest, s.host ≠ .writeCtrl 1 :: rest) → (∀ rest, s.host ≠ .reset :: rest) →
    step s = .next t → t.status = s.status

/-! ## Reset -/

/-- R26: the values after reset, a START straight after reset ends with UnsupportedFormat, and a reset of the idle core
changes neither IN nor OUT (a reset during a command is R156). -/
def Obligations.ResetValues : Prop :=
  State.reset.format = 0 ∧ State.reset.width = 0 ∧ State.reset.height = 0 ∧ State.reset.inLen = 0 ∧
  State.reset.readReg .ctrl = 0 ∧ State.reset.status = 0 ∧ State.reset.busy = false ∧ State.reset.done = false ∧
  State.reset.err = 0 ∧ State.reset.cur = 0 ∧ State.reset.bxi = 0 ∧ State.reset.byi = 0 ∧
  step { State.reset with host := [.writeCtrl 1] } = .next { State.reset with status := 0b1010, freeCtr := 1 } ∧
  ∀ (s : State) (rest : List HostOp), s.host = .reset :: rest → s.busy = false →
    ∃ t, step s = .next t ∧ t.inMem = s.inMem ∧ t.outMem = s.outMem ∧ t.busy = false

/-- R155, R26: the reset input brings every register to its reset value and does not touch IN, nor OUT when no command
runs. -/
def Obligations.ResetInputRestoresRegisters : Prop :=
  ∀ (s : State) (rest : List HostOp), s.host = .reset :: rest → ∃ t, step s = .next t ∧
    t.format = 0 ∧ t.width = 0 ∧ t.height = 0 ∧ t.inLen = 0 ∧ t.status = 0 ∧ t.cur = 0 ∧ t.bxi = 0 ∧ t.byi = 0 ∧
    t.inMem = s.inMem ∧ (s.busy = false → t.outMem = s.outMem)

/-- R156: after a reset during a command, a byte of OUT below `out_size` is what it held, the old byte, the command's byte or a
byte the host wrote there (R160), a free choice of the model (logs 6, 7, 9); where OUT held the old byte, the new byte or one
the host wrote (the invariant OutBytesOk) it still does. A byte at or above `out_size` is unchanged. -/
def Obligations.ResetDuringCommand : Prop :=
  ∀ (s : State) (rest : List HostOp) (f : Format), s.host = .reset :: rest → s.running = some f →
    ∃ t, step s = .next t ∧ t.done = false ∧ ∀ o,
      (s.width.toNat * s.height.toNat * f.chan ≤ o → t.outMem.read o = s.outMem.read o) ∧
      (o < s.width.toNat * s.height.toNat * f.chan →
        t.outMem.read o ∈ [s.outMem.read o, s.outOld.read o, (s.popHost rest).resultByte f o] ++ logged s.outLog o) ∧
      (s.OutBytesOk → ∀ x y k, x < s.width.toNat → y < s.height.toNat → k < f.chan → o = s.pixelByte f x y k →
        s.OldNewOrHost f x y k (t.outMem.read o))

/-! ## The host and the memories -/

/-- R20, R129, R148: a host access other than a write of CTRL or a reset leaves every register of the core but the one it
writes: STATUS, CUR, BXI, BYI, BLK and PATCH are as before. -/
def Obligations.HostAccessLeavesCore : Prop :=
  ∀ (s t : State) (op : HostOp) (rest : List HostOp), s.host = op :: rest → op ≠ .pass → op ≠ .reset →
    (∀ v, op ≠ .writeCtrl v) → step s = .next t →
    t.status = s.status ∧ t.cur = s.cur ∧ t.bxi = s.bxi ∧ t.byi = s.byi ∧ t.blk = s.blk ∧ t.patch = s.patch

/-- R129, R22: the core never writes IN, FORMAT, WIDTH, HEIGHT or IN_LEN: no step of its own and no check step does. -/
def Obligations.CoreNeverWritesInput : Prop :=
  ∀ s t : State, s.host = [] ∨ (∃ rest, s.host = .pass :: rest) ∨ (∃ v rest, s.host = .writeCtrl v :: rest) →
    step s = .next t →
    t.inMem = s.inMem ∧ t.format = s.format ∧ t.width = s.width ∧ t.height = s.height ∧ t.inLen = s.inLen

/-- R159, R36: a host write of IN while a command runs. At or above `required` it changes that byte of IN alone. Below, IN
holds the byte, the command sees it or a value the byte had before, no register changes, and OUT changes only if the byte's
block has already been handled (log 8). -/
def Obligations.InputWriteWhileBusy : Prop :=
  ∀ (s : State) (rest : List HostOp) (f : Format) (a : Nat) (v : Byte), s.host = .writeIn a v :: rest →
    s.running = some f →
    let required := (s.width.toNat + 3) / 4 * ((s.height.toNat + 3) / 4) * f.size
    (required ≤ a → step s = .next { s.popHost rest with inMem := s.inMem.write a v }) ∧
    (a < required → ∃ t, step s = .next t ∧ t.inMem = s.inMem.write a v ∧
      t.fetchByte a ∈ [v, s.inMem.read a] ++ logged s.inLog a ∧
      t.format = s.format ∧ t.width = s.width ∧ t.height = s.height ∧ t.inLen = s.inLen ∧ t.status = s.status ∧
      t.cur = s.cur ∧ t.bxi = s.bxi ∧ t.byi = s.byi ∧
      (s.cur.toNat ≤ a / f.size * f.size → t.outMem = s.outMem))

/-- R159, R45, 93_implementation_defined.md U3: when the host rewrites a byte of a block whose step has already run, every
pixel of that block shows the decode of some mixture of the bytes the block has had since START, each pixel its own (log 8);
every other byte of OUT is as before. A byte of OUT the host wrote during the command may survive (R160, log 9). -/
def Obligations.RewrittenInputGivesMixtures : Prop :=
  ∀ (s : State) (rest : List HostOp) (f : Format) (a : Nat) (v : Byte), s.host = .writeIn a v :: rest →
    s.running = some f → a < s.required f → a / f.size * f.size < s.cur.toNat →
    ∃ t, step s = .next t ∧
      (∀ x y, x < s.width.toNat → y < s.height.toNat → s.blockOf x y = a / f.size →
        ∃ bs, t.Mixture f (a / f.size) bs ∧ ∀ k, k < f.chan →
          t.outMem.read (s.pixelByte f x y k) ∈ decodedByte f bs x y k :: logged s.outLog (s.pixelByte f x y k)) ∧
      ∀ o, (∀ x y k, x < s.width.toNat → y < s.height.toNat → k < f.chan → s.blockOf x y = a / f.size →
          o ≠ s.pixelByte f x y k) →
        t.outMem.read o ∈ s.outMem.read o :: logged s.outLog o

/-- R160, R42: a host read of OUT. When no command runs, and at or above `out_size`, it returns the byte; below, while a
command runs, what the byte holds, the old byte or the command's byte (or a byte the host wrote), a free choice (logs 6, 7, 9).
Nothing else changes. -/
def Obligations.OutputReadByHost : Prop :=
  ∀ (s : State) (rest : List HostOp) (a : Nat), s.host = .readOut a :: rest →
    ∃ v : Byte, step s = .next { s.popHost rest with rdata := v.setWidth 64 } ∧
      (s.busy = false → v = s.outMem.read a) ∧
      ∀ f, s.running = some f →
        (s.width.toNat * s.height.toNat * f.chan ≤ a → v = s.outMem.read a) ∧
        (a < s.width.toNat * s.height.toNat * f.chan →
          v ∈ [s.outMem.read a, s.outOld.read a, (s.popHost rest).resultByte f a] ++ logged s.outLog a)

/-- R160: a host write of OUT. When no command runs, and at or above `out_size`, it changes that byte alone. Below, while a
command runs, the byte is then the one it held or one the host wrote, and no byte the host has not written changes
(log 9). -/
def Obligations.OutputWriteByHost : Prop :=
  ∀ (s : State) (rest : List HostOp) (a : Nat) (v : Byte), s.host = .writeOut a v :: rest →
    (s.busy = false → step s = .next { s.popHost rest with outMem := s.outMem.write a v }) ∧
    ∀ f, s.running = some f →
      (s.width.toNat * s.height.toNat * f.chan ≤ a →
        step s = .next { s.popHost rest with outMem := s.outMem.write a v }) ∧
      (a < s.width.toNat * s.height.toNat * f.chan → ∃ t, step s = .next t ∧
        t.outMem.read a ∈ [s.outMem.read a, v] ++ logged s.outLog a ∧
        ∀ o, o ≠ a → (∀ c ∈ s.outLog, c.1 ≠ o) → t.outMem.read o = s.outMem.read o)

/-! ## Invariants and whole commands -/

/-- R26: the invariant holds at reset, and so does what OUT may hold. -/
def Obligations.InvariantAtReset : Prop := State.reset.Inv ∧ State.reset.OutBytesOk

/-- R19, R122, R138, R148: every step keeps the invariant, from every state that has it: the memories stay in canonical form,
STATUS stays legal, and a running command has a legal format, sizes that its input covers, counters inside the image and the
cursor of R122. -/
def Obligations.InvariantKeptByStep : Prop := ∀ s t : State, s.Inv → step s = .next t → t.Inv

/-- R19: BUSY and DONE are never both 1 and a non-zero ERR implies DONE: every step keeps this by itself. -/
def Obligations.StatusKeptLegal : Prop := ∀ s t : State, s.StatusOk → step s = .next t → t.StatusOk

/-- R123, R13, R36, R40: before each block step the fetch is block-aligned and wholly inside the declared input. -/
def Obligations.BlockFetchInRange : Prop :=
  ∀ s : State, s.Inv → s.busy = true → ∃ f, formatOf s.format = some f ∧ f.size ∣ s.cur.toNat ∧
    s.cur.toNat + f.size ≤ s.required f ∧ s.required f ≤ s.inLen.toNat

/-- R37, R34, R124: no texel store goes past the image, and each is aligned to a pixel. -/
def Obligations.TexelStoresInRange : Prop :=
  ∀ (s : State) (f : Format) (n a : Nat), s.texelAddr f n = some a →
    a + f.chan ≤ s.width.toNat * s.height.toNat * f.chan ∧ f.chan ∣ a

/-- R127: every pixel of the image is the target of exactly one texel of exactly one block. -/
def Obligations.EveryPixelStoredOnce : Prop :=
  ∀ (s : State) (f : Format) (x y : Nat), x < s.width.toNat → y < s.height.toNat →
    ∃ bx by' n, bx < s.blocksWide ∧ by' < s.blocksHigh ∧ n < 16 ∧
      ∀ bx' by'' n', bx' < s.blocksWide → by'' < s.blocksHigh → n' < 16 →
        (State.texelAddr { s with bxi := BitVec.ofNat 30 bx', byi := BitVec.ofNat 30 by'' } f n' =
            some ((y * s.width.toNat + x) * f.chan) ↔ bx' = bx ∧ by'' = by' ∧ n' = n)

/-- R121, R122, R125: from acceptance, the `n`-th block step handles block `n` in row-major order at `CUR = n · size`, and the
command stays BUSY for exactly `nblocks` steps; then STATUS is 2 and CUR is `required`. -/
def Obligations.CommandTakesOneStepPerBlock : Prop :=
  ∀ (s : State) (f : Format), s.host = [] → s.status = 0b0001 → s.CommandOk f → s.cur = 0 → s.bxi = 0 → s.byi = 0 →
    (∀ n, n < s.nblocks → ∃ t : State, Host.Core.run Sys2Proof.core n s = .next t ∧ t.status = 0b0001 ∧
      t.cur.toNat = n * f.size ∧ t.bxi.toNat = n % s.blocksWide ∧ t.byi.toNat = n / s.blocksWide) ∧
    ∃ t : State, Host.Core.run Sys2Proof.core s.nblocks s = .next t ∧ t.status = 0b0010 ∧ t.cur.toNat = s.required f

/-- R121: the whole command. From acceptance, with the host leaving IN and OUT alone, after `nblocks` steps OUT holds the
closed form of `decode` at every pixel and channel of the image, every other byte of OUT is as before, IN and the
configuration are as before, and STATUS shows DONE without error. -/
def Obligations.CommandComputesDecode : Prop :=
  ∀ (s : State) (f : Format), s.host = [] → s.status = 0b0001 → s.CommandOk f → s.cur = 0 → s.bxi = 0 → s.byi = 0 →
    s.inLog = [] → s.outLog = [] →
    ∃ t : State, Host.Core.run Sys2Proof.core s.nblocks s = .next t ∧ t.status = 0b0010 ∧
      (∀ x y k, x < s.width.toNat → y < s.height.toNat → k < f.chan →
        t.outMem.read ((y * s.width.toNat + x) * f.chan + k) =
          ((decPatch f ((List.range f.size).map fun i =>
            s.inMem.read ((y / 4 * ((s.width.toNat + 3) / 4) + x / 4) * f.size + i))).getD
              (4 * (y % 4) + x % 4) []).getD k 0) ∧
      (∀ o, s.width.toNat * s.height.toNat * f.chan ≤ o → t.outMem.read o = s.outMem.read o) ∧
      t.inMem = s.inMem ∧ t.format = s.format ∧ t.width = s.width ∧ t.height = s.height ∧ t.inLen = s.inLen

/-- R38, R9, R36: the output is a function of the registers and of the first `required` bytes of IN: two accepted commands that
agree on these write the same image, whatever else their states hold. -/
def Obligations.OutputDependsOnInputOnly : Prop :=
  ∀ (s s' : State) (f : Format), s.host = [] → s'.host = [] → s.status = 0b0001 → s'.status = 0b0001 →
    s.CommandOk f → s'.CommandOk f → s.cur = 0 → s.bxi = 0 → s.byi = 0 → s'.cur = 0 → s'.bxi = 0 → s'.byi = 0 →
    s.inLog = [] → s.outLog = [] → s'.inLog = [] → s'.outLog = [] → s.width = s'.width → s.height = s'.height →
    (∀ a, a < s.required f → s.inMem.read a = s'.inMem.read a) →
    ∃ t t' : State, Host.Core.run Sys2Proof.core s.nblocks s = .next t ∧ Host.Core.run Sys2Proof.core s'.nblocks s' = .next t' ∧
      ∀ o, o < s.width.toNat * s.height.toNat * f.chan → t.outMem.read o = t'.outMem.read o

/-! ## The host's writes of IN, and what OUT may hold -/

/-- R22, R45, R42: a host write of IN when no command runs changes that byte of IN and nothing else. -/
def Obligations.InputWriteWhenIdle : Prop :=
  ∀ (s : State) (rest : List HostOp) (a : Nat) (v : Byte), s.host = .writeIn a v :: rest → s.busy = false →
    step s = .next { s.popHost rest with inMem := s.inMem.write a v } ∧
    ∀ b, (s.inMem.write a v).read b = if b = a then v else s.inMem.read b

/-- R42, R45: an accepted START hands the input and the registers over: the command sees IN and the configuration as the host
left them, whatever has been written before. -/
def Obligations.StartHandsOverInput : Prop :=
  ∀ (s t : State) (rest : List HostOp), s.host = .writeCtrl 1 :: rest → s.busy = false → step s = .next t →
    t.busy = true →
    t.inMem = s.inMem ∧ (∀ (use : FreeUse) (a : Nat), t.seenByte use a = s.inMem.read a) ∧
    t.format = s.format ∧ t.width = s.width ∧ t.height = s.height ∧ t.inLen = s.inLen

/-- R159, R45, 93_implementation_defined.md U3: after its block step every pixel of a block shows the decode of some mixture of
the bytes the block has had since START, each pixel its own (log 8); for a block the host has not rewritten that is the decode
of the block. Every other byte of OUT is as before. A byte of OUT the host wrote during the command may survive (R160, log
9). -/
def Obligations.BlockStepShowsMixtures : Prop :=
  ∀ (s : State) (f : Format), s.host = [] ∨ (∃ rest, s.host = .pass :: rest) → s.busy = true → s.CommandOk f →
    ∃ t, step s = .next t ∧
      (∀ x y, x < s.width.toNat → y < s.height.toNat → x / 4 = s.bxi.toNat → y / 4 = s.byi.toNat →
        ∃ bs, s.Mixture f (s.blockOf x y) bs ∧ ∀ k, k < f.chan →
          t.outMem.read (s.pixelByte f x y k) ∈ decodedByte f bs x y k :: logged s.outLog (s.pixelByte f x y k)) ∧
      ∀ o, (∀ x y k, x < s.width.toNat → y < s.height.toNat → k < f.chan → x / 4 = s.bxi.toNat → y / 4 = s.byi.toNat →
          o ≠ s.pixelByte f x y k) →
        t.outMem.read o ∈ s.outMem.read o :: logged s.outLog o

/-- R156, R160, 93_implementation_defined.md U2, U4: every step keeps that, while a command runs, each byte of the image in OUT
is the old byte, the new byte (decoded from some mixture of its block) or one the host wrote there (logs 7, 8, 9). -/
def Obligations.OutBytesKeptOldOrNew : Prop :=
  ∀ s t : State, s.Inv → s.OutBytesOk → step s = .next t → t.OutBytesOk
end

