-- ==== Sys2Proof/Laws/Fields.lean ====
section
/-! SUPPORT. The bit-field unpacker, byte lanes, and the packers: each said once as arithmetic. -/
namespace Sys2Proof

theorem Format.chan_pos (f : Format) : 0 < f.chan := by cases f <;> decide

theorem Format.chan_le (f : Format) : f.chan ≤ 4 := by cases f <;> decide

theorem Format.size_pos (f : Format) : 0 < f.size := by cases f <;> decide

theorem Format.size_le (f : Format) : f.size ≤ 16 := by cases f <;> decide

theorem blockValue_lt (bs : List Byte) : blockValue bs < 256 ^ bs.length := by
  induction bs with
  | nil => simp [blockValue]
  | cons b bs ih =>
    have hb : b.toNat < 256 := b.isLt
    rw [blockValue, List.length_cons, pow_succ]
    omega

theorem blockValue_append (bs cs : List Byte) :
    blockValue (bs ++ cs) = blockValue bs + 256 ^ bs.length * blockValue cs := by
  induction bs with
  | nil => simp [blockValue]
  | cons b bs ih =>
    rw [List.cons_append, blockValue, ih, blockValue, List.length_cons, pow_succ]
    ring

theorem leBytes_length (n v : Nat) : (leBytes n v).length = n := by
  induction n generalizing v with
  | zero => rfl
  | succ n ih => simp [leBytes, ih]

theorem blockValue_leBytes (n v : Nat) : blockValue (leBytes n v) = v % 256 ^ n := by
  induction n generalizing v with
  | zero => simp [leBytes, blockValue, Nat.mod_one]
  | succ n ih =>
    have h256 : 256 ^ (n + 1) = 256 * 256 ^ n := by rw [pow_succ, mul_comm]
    rw [leBytes, blockValue, ih, BitVec.toNat_ofNat, h256, Nat.mod_mul]

theorem leBytes_blockValue (bs : List Byte) : leBytes bs.length (blockValue bs) = bs := by
  induction bs with
  | nil => rfl
  | cons b bs ih =>
    have hb : b.toNat < 256 := b.isLt
    have h1 : (b.toNat + 256 * blockValue bs) / 256 = blockValue bs := by omega
    have h2 : BitVec.ofNat 8 (b.toNat + 256 * blockValue bs) = b := by
      apply BitVec.eq_of_toNat_eq
      rw [BitVec.toNat_ofNat]
      omega
    rw [List.length_cons, blockValue, leBytes, h1, h2, ih]

theorem leBytes_mod (n k v : Nat) : leBytes n (v % 256 ^ (n + k)) = leBytes n v := by
  have h : ∀ v, leBytes n v = leBytes n (v % 256 ^ n) := fun v => by
    have h := leBytes_blockValue (leBytes n v)
    rw [leBytes_length, blockValue_leBytes] at h
    exact h.symm
  rw [h, h v, pow_add, Nat.mod_mul_right_mod]

/-- `FIELD` as arithmetic: `(V >> off) mod 2^w` (R70). -/
theorem field_toNat (bs : List Byte) (off w : Nat) : (field bs off w).toNat = blockValue bs / 2 ^ off % 2 ^ w := by
  rw [field, BitVec.toNat_ofNat, Nat.shiftRight_eq_div_pow]

/-! ## Packed fields -/

theorem packFields_append {w : Nat} (xs ys : List (BitVec w)) :
    packFields (xs ++ ys) = packFields xs + 2 ^ (w * xs.length) * packFields ys := by
  induction xs with
  | nil => simp [packFields]
  | cons x xs ih =>
    rw [List.cons_append, packFields, ih, packFields, List.length_cons, Nat.mul_succ, pow_add]
    ring

theorem packFields_lt {w : Nat} (xs : List (BitVec w)) : packFields xs < 2 ^ (w * xs.length) := by
  induction xs with
  | nil => simp [packFields]
  | cons x xs ih =>
    have hx := x.isLt
    rw [packFields, List.length_cons, Nat.mul_succ, pow_add, mul_comm (2 ^ (w * xs.length))]
    calc x.toNat + 2 ^ w * packFields xs < 2 ^ w + 2 ^ w * packFields xs := by omega
      _ = 2 ^ w * (packFields xs + 1) := by ring
      _ ≤ 2 ^ w * 2 ^ (w * xs.length) := Nat.mul_le_mul_left _ ih

/-- Field `t` of a packed list. -/
theorem packFields_get {w : Nat} (xs : List (BitVec w)) (t : Nat) :
    packFields xs / 2 ^ (w * t) % 2 ^ w = (xs.getD t 0).toNat := by
  induction xs generalizing t with
  | nil => simp [packFields]
  | cons x xs ih =>
    have hx := x.isLt
    cases t with
    | zero => simp [packFields, Nat.mod_eq_of_lt hx]
    | succ t =>
      rw [List.getD_cons_succ, ← ih t, packFields, Nat.mul_succ, Nat.add_comm (w * t), pow_add, ← Nat.div_div_eq_div_mul,
        Nat.add_mul_div_left _ _ (Nat.two_pow_pos w), Nat.div_eq_of_lt hx, Nat.zero_add]

theorem texelFields_length (bs : List Byte) (base w : Nat) : (texelFields bs base w).length = 16 := by
  simp [texelFields]

/-- The sixteen fields read from a block, packed again, are the slice they were read from. -/
theorem packFields_texelFields (bs : List Byte) (base w : Nat) :
    packFields (texelFields bs base w) = blockValue bs / 2 ^ base % 2 ^ (w * 16) := by
  have h : ∀ n, packFields ((List.range n).map fun t => field bs (base + w * t) w) =
      blockValue bs / 2 ^ base % 2 ^ (w * n) := by
    intro n
    induction n with
    | zero => simp [packFields, Nat.mod_one]
    | succ n ih =>
      rw [List.range_succ, List.map_append, packFields_append, ih, List.length_map, List.length_range, List.map_singleton,
        packFields, packFields, field_toNat, Nat.mul_succ, pow_add, pow_add, Nat.mod_mul, Nat.div_div_eq_div_mul]
      ring
  exact h 16

/-- The sixteen fields of a block whose slice at `base` holds a packed list are that list. -/
theorem texelFields_eq {w : Nat} (bs : List Byte) (base : Nat) (xs : List (BitVec w)) (hx : xs.length = 16)
    (h : blockValue bs / 2 ^ base = packFields xs) : texelFields bs base w = xs := by
  apply List.ext_getElem (by rw [texelFields_length, hx])
  intro t h1 h2
  apply BitVec.eq_of_toNat_eq
  have hg := packFields_get xs t
  rw [List.getD_eq_getElem _ _ h2] at hg
  simp only [texelFields, List.getElem_map, List.getElem_range, field_toNat]
  rw [pow_add, ← Nat.div_div_eq_div_mul, h, hg]

/-! ## Sub-blocks -/

theorem encodeC64_length (c : C64) : (encodeC64 c).length = 8 := leBytes_length 8 _

theorem encodeX64_length (x : X64) : (encodeX64 x).length = 8 := leBytes_length 8 _

theorem encodeA64_length (a : A64) : (encodeA64 a).length = 8 := leBytes_length 8 _

theorem decodeC64_wf (bs : List Byte) : (decodeC64 bs).wf = true := by simp [C64.wf, decodeC64, texelFields_length]

theorem decodeX64_wf (bs : List Byte) : (decodeX64 bs).wf = true := by simp [X64.wf, decodeX64, texelFields_length]

theorem decodeA64_wf (bs : List Byte) : (decodeA64 bs).wf = true := by simp [A64.wf, decodeA64, texelFields_length]

theorem decodeC64_encodeC64 (c : C64) (h : c.wf = true) : decodeC64 (encodeC64 c) = c := by
  obtain ⟨c0, c1, cidx⟩ := c
  have hlen : cidx.length = 16 := by simpa [C64.wf] using h
  have hp : packFields cidx < 2 ^ 32 := by simpa [hlen] using packFields_lt cidx
  have h0 := c0.isLt
  have h1 := c1.isLt
  have hv : blockValue (encodeC64 ⟨c0, c1, cidx⟩) = c0.toNat + 2 ^ 16 * c1.toNat + 2 ^ 32 * packFields cidx := by
    rw [encodeC64, blockValue_leBytes]
    dsimp only
    omega
  simp only [decodeC64, C64.mk.injEq]
  refine ⟨BitVec.eq_of_toNat_eq ?_, BitVec.eq_of_toNat_eq ?_, texelFields_eq _ _ _ hlen ?_⟩
  · rw [field_toNat, hv]; omega
  · rw [field_toNat, hv]; omega
  · rw [hv]; omega

theorem decodeX64_encodeX64 (x : X64) (h : x.wf = true) : decodeX64 (encodeX64 x) = x := by
  obtain ⟨xa⟩ := x
  have hlen : xa.length = 16 := by simpa [X64.wf] using h
  have hp : packFields xa < 2 ^ 64 := by simpa [hlen] using packFields_lt xa
  simp only [decodeX64, X64.mk.injEq]
  refine texelFields_eq _ _ _ hlen ?_
  rw [encodeX64, blockValue_leBytes]
  simp only [pow_zero, Nat.div_one]
  omega

theorem decodeA64_encodeA64 (a : A64) (h : a.wf = true) : decodeA64 (encodeA64 a) = a := by
  obtain ⟨a0, a1, aidx⟩ := a
  have hlen : aidx.length = 16 := by simpa [A64.wf] using h
  have hp : packFields aidx < 2 ^ 48 := by simpa [hlen] using packFields_lt aidx
  have h0 := a0.isLt
  have h1 := a1.isLt
  have hv : blockValue (encodeA64 ⟨a0, a1, aidx⟩) = a0.toNat + 2 ^ 8 * a1.toNat + 2 ^ 16 * packFields aidx := by
    rw [encodeA64, blockValue_leBytes]
    dsimp only
    omega
  simp only [decodeA64, A64.mk.injEq]
  refine ⟨BitVec.eq_of_toNat_eq ?_, BitVec.eq_of_toNat_eq ?_, texelFields_eq _ _ _ hlen ?_⟩
  · rw [field_toNat, hv]; omega
  · rw [field_toNat, hv]; omega
  · rw [hv]; omega

theorem encodeC64_decodeC64 (bs : List Byte) (h : bs.length = 8) : encodeC64 (decodeC64 bs) = bs := by
  have hb := blockValue_lt bs
  rw [h] at hb
  have hv : (decodeC64 bs).c0.toNat + 2 ^ 16 * (decodeC64 bs).c1.toNat + 2 ^ 32 * packFields (decodeC64 bs).cidx =
      blockValue bs := by
    simp only [decodeC64, field_toNat, packFields_texelFields]
    omega
  have hl := leBytes_blockValue bs
  rw [h] at hl
  rw [encodeC64, hv, hl]

theorem encodeX64_decodeX64 (bs : List Byte) (h : bs.length = 8) : encodeX64 (decodeX64 bs) = bs := by
  have hb := blockValue_lt bs
  rw [h] at hb
  have hl := leBytes_blockValue bs
  rw [h] at hl
  rw [encodeX64, decodeX64, packFields_texelFields, pow_zero, Nat.div_one, Nat.mod_eq_of_lt (by omega), hl]

theorem encodeA64_decodeA64 (bs : List Byte) (h : bs.length = 8) : encodeA64 (decodeA64 bs) = bs := by
  have hb := blockValue_lt bs
  rw [h] at hb
  have hv : (decodeA64 bs).a0.toNat + 2 ^ 8 * (decodeA64 bs).a1.toNat + 2 ^ 16 * packFields (decodeA64 bs).aidx =
      blockValue bs := by
    simp only [decodeA64, field_toNat, packFields_texelFields]
    omega
  have hl := leBytes_blockValue bs
  rw [h] at hl
  rw [encodeA64, hv, hl]

/-! ## Byte lanes -/

namespace Machine

theorem setLanes_nil {w : Nat} (r : BitVec w) : setLanes r [] = r := by
  apply BitVec.eq_of_toNat_eq
  simp [setLanes, blockValue]

theorem setLanes_toNat {w : Nat} (r : BitVec w) (bs : List Byte) (h : 8 * bs.length ≤ w) :
    (setLanes r bs).toNat = r.toNat / 256 ^ bs.length * 256 ^ bs.length + blockValue bs := by
  have hb := blockValue_lt bs
  have hr := r.isLt
  have hp : (256 : Nat) ^ bs.length = 2 ^ (8 * bs.length) := by rw [pow_mul]; norm_num
  have hw : (2 : Nat) ^ w = 256 ^ bs.length * 2 ^ (w - 8 * bs.length) := by
    rw [hp, ← pow_add]; congr 1; omega
  have hd : r.toNat / 256 ^ bs.length < 2 ^ (w - 8 * bs.length) := by
    apply Nat.div_lt_of_lt_mul
    rw [← hw]; exact hr
  rw [setLanes, BitVec.toNat_ofNat, Nat.mod_eq_of_lt]
  rw [hw]
  calc r.toNat / 256 ^ bs.length * 256 ^ bs.length + blockValue bs
      < r.toNat / 256 ^ bs.length * 256 ^ bs.length + 256 ^ bs.length := by omega
    _ = (r.toNat / 256 ^ bs.length + 1) * 256 ^ bs.length := by ring
    _ ≤ 2 ^ (w - 8 * bs.length) * 256 ^ bs.length := Nat.mul_le_mul_right _ hd
    _ = _ := mul_comm _ _

/-- The lanes written read back. -/
theorem lanes_setLanes {w : Nat} (r : BitVec w) (bs : List Byte) (h : 8 * bs.length ≤ w) :
    lanes bs.length (setLanes r bs) = bs := by
  have hb := blockValue_lt bs
  rw [lanes, setLanes_toNat r bs h]
  conv_rhs => rw [← leBytes_blockValue bs]
  rw [← leBytes_mod bs.length 0, Nat.add_zero, Nat.mul_add_mod_self_right, Nat.mod_eq_of_lt hb]

/-- The lanes above those written are kept. -/
theorem setLanes_high {w : Nat} (r : BitVec w) (bs : List Byte) (h : 8 * bs.length ≤ w) :
    (setLanes r bs).toNat / 256 ^ bs.length = r.toNat / 256 ^ bs.length := by
  have hb := blockValue_lt bs
  rw [setLanes_toNat r bs h, Nat.mul_comm, Nat.mul_add_div (by positivity), Nat.div_eq_of_lt hb, Nat.add_zero]

/-- Byte `i` of a little-endian integer. -/
theorem leBytes_getD (n v i : Nat) (h : i < n) : (leBytes n v).getD i 0 = BitVec.ofNat 8 (v / 256 ^ i) := by
  induction n generalizing v i with
  | zero => omega
  | succ n ih =>
    cases i with
    | zero => simp [leBytes]
    | succ i => rw [leBytes, List.getD_cons_succ, ih _ _ (by omega), Nat.div_div_eq_div_mul, pow_succ, mul_comm]

/-- A lane that was written. -/
theorem lanes_setLanes_low {w : Nat} (r : BitVec w) (bs : List Byte) (n i : Nat) (h : 8 * bs.length ≤ w)
    (hi : i < bs.length) (hn : i < n) : (lanes n (setLanes r bs)).getD i 0 = bs.getD i 0 := by
  have e := lanes_setLanes r bs h
  rw [lanes, leBytes_getD _ _ _ hn]
  conv_rhs => rw [← e, lanes, leBytes_getD _ _ _ hi]

/-- A lane above those written. -/
theorem lanes_setLanes_high {w : Nat} (r : BitVec w) (bs : List Byte) (n i : Nat) (h : 8 * bs.length ≤ w)
    (hi : bs.length ≤ i) (hn : i < n) : (lanes n (setLanes r bs)).getD i 0 = (lanes n r).getD i 0 := by
  have e := setLanes_high r bs h
  rw [lanes, lanes, leBytes_getD _ _ _ hn, leBytes_getD _ _ _ hn, show i = bs.length + (i - bs.length) by omega, pow_add,
    ← Nat.div_div_eq_div_mul, ← Nat.div_div_eq_div_mul, e]

end Machine

end Sys2Proof
end

