-- ==== Sys2Proof/Laws/Memory.lean ====
section
/-! SUPPORT. The laws of a byte memory: read after write, and that every operation keeps the canonical form. -/
namespace Sys2Proof.Machine

theorem Memory.read_insert (m : Memory) (c : Host.Cell) (a : Nat) (h : ∀ d ∈ m, d.1 ≠ c.1) :
    (Memory.insert m c).read a = if c.1 = a then c.2 else m.read a := by
  induction m with
  | nil => simp [Memory.insert, Memory.read]
  | cons d m ih =>
    have hd : d.1 ≠ c.1 := h d (by simp)
    have ih := ih fun e he => h e (by simp [he])
    unfold Memory.insert
    split
    · simp [Memory.read]
    · simp only [Memory.read, ih]
      split <;> split <;> simp_all

theorem Memory.read_filter (m : Memory) (a b : Nat) :
    Memory.read (m.filter fun c => c.1 != a) b = if b = a then Memory.unlisted else m.read b := by
  induction m with
  | nil => simp [Memory.read]
  | cons d m ih =>
    by_cases hd : d.1 = a
    · simp only [hd, List.filter_cons, bne_self_eq_false, Bool.false_eq_true, if_false, ih, Memory.read]
      by_cases hb : b = a
      · simp [hb]
      · simp [hb, Ne.symm hb]
    · simp only [List.filter_cons, bne_iff_ne, ne_eq, hd, not_false_eq_true, if_true, Memory.read, ih]
      by_cases hb : b = a
      · subst hb; simp [hd]
      · simp [hb]

/-- Reading after writing one byte: the byte written there, every other byte as before. -/
theorem Memory.read_write (m : Memory) (a b : Nat) (v : Byte) :
    (m.write a v).read b = if b = a then v else m.read b := by
  have hf : ∀ d ∈ m.filter (fun c => c.1 != a), d.1 ≠ a := by simp
  unfold Memory.write
  split
  · next h => rw [Memory.read_filter, h]
  · rw [Memory.read_insert _ _ _ hf, Memory.read_filter]
    by_cases hb : b = a
    · simp [hb]
    · simp [hb, Ne.symm hb]

theorem Memory.mem_insert (m : Memory) (c d : Host.Cell) : d ∈ Memory.insert m c ↔ d = c ∨ d ∈ m := by
  induction m with
  | nil => simp [Memory.insert]
  | cons e m ih =>
    unfold Memory.insert
    split
    · simp
    · simp only [List.mem_cons, ih]
      tauto

theorem Memory.insert_wf (m : Memory) (c : Host.Cell) (h : m.wf) (hc : c.2 ≠ Memory.unlisted)
    (hk : ∀ d ∈ m, d.1 ≠ c.1) : (Memory.insert m c).wf := by
  obtain ⟨hs, hz⟩ := h
  refine ⟨?_, fun d hd => ((Memory.mem_insert m c d).1 hd).elim (fun e => e ▸ hc) (hz d)⟩
  clear hz
  induction m with
  | nil => simp [Memory.insert]
  | cons e m ih =>
    obtain ⟨he, hm⟩ := List.pairwise_cons.1 hs
    unfold Memory.insert
    split
    · next hlt =>
      refine List.pairwise_cons.2 ⟨fun d hd => ?_, hs⟩
      rcases List.mem_cons.1 hd with rfl | hd
      · exact hlt
      · exact lt_trans hlt (he d hd)
    · next hge =>
      have hne : e.1 ≠ c.1 := hk e (by simp)
      refine List.pairwise_cons.2 ⟨fun d hd => ?_, ih (fun d hd => hk d (by simp [hd])) hm⟩
      rcases (Memory.mem_insert m c d).1 hd with rfl | hd
      · omega
      · exact he d hd

/-- A write keeps the canonical form. -/
theorem Memory.write_wf (m : Memory) (a : Nat) (v : Byte) (h : m.wf) : (m.write a v).wf := by
  have hf : Memory.wf (m.filter fun c => c.1 != a) :=
    ⟨h.1.filter _, fun c hc => h.2 c (List.mem_filter.1 hc).1⟩
  unfold Memory.write
  split
  · exact hf
  · next hv => exact Memory.insert_wf _ _ hf hv (by simp)

/-- Reading after writing a run of bytes: the bytes written there, every other byte as before. -/
theorem Memory.read_writeBytes (bs : List Byte) (m : Memory) (a b : Nat) :
    (m.writeBytes a bs).read b = if a ≤ b ∧ b < a + bs.length then bs.getD (b - a) 0 else m.read b := by
  induction bs generalizing m a with
  | nil => simp [Memory.writeBytes]
  | cons v bs ih =>
    rw [Memory.writeBytes, ih, Memory.read_write, List.length_cons]
    by_cases hb : b = a
    · subst hb; simp
    · by_cases h : a + 1 ≤ b ∧ b < a + 1 + bs.length
      · have h' : a ≤ b ∧ b < a + (bs.length + 1) := by omega
        have hk : b - a = (b - (a + 1)) + 1 := by omega
        rw [if_pos h, if_pos h', hk, List.getD_cons_succ]
      · have h' : ¬ (a ≤ b ∧ b < a + (bs.length + 1)) := by omega
        rw [if_neg h, if_neg h', if_neg hb]

/-- A write of a run of bytes keeps the canonical form. -/
theorem Memory.writeBytes_wf (bs : List Byte) (m : Memory) (a : Nat) (h : m.wf) : (m.writeBytes a bs).wf := by
  induction bs generalizing m a with
  | nil => exact h
  | cons v bs ih => exact ih _ _ (Memory.write_wf m a v h)

/-- The memory at reset is in canonical form. -/
theorem Memory.nil_wf : Memory.wf [] := ⟨List.Pairwise.nil, by simp⟩

end Sys2Proof.Machine
end

