-- ==== Sys2Proof/Laws/Status.lean ====
section
/-! SUPPORT. The fields of the STATUS word (R19) read back what was written. -/
namespace Sys2Proof.Machine

theorem statusWord_busy : ∀ (b d : Bool) (e : BitVec 2), (statusWord b d e).getLsbD 0 = b := by decide

theorem statusWord_done : ∀ (b d : Bool) (e : BitVec 2), (statusWord b d e).getLsbD 1 = d := by decide

theorem statusWord_err : ∀ (b d : Bool) (e : BitVec 2), (statusWord b d e).extractLsb' 2 2 = e := by decide

/-- The STATUS word is the word of its three fields. -/
theorem statusWord_fields :
    ∀ w : BitVec 4, statusWord (w.getLsbD 0) (w.getLsbD 1) (w.extractLsb' 2 2) = w := by decide

theorem State.status_eq (s : State) : s.status = statusWord s.busy s.done s.err :=
  (statusWord_fields s.status).symm

@[simp] theorem State.busy_mk (s : State) (b d : Bool) (e : BitVec 2) :
    State.busy { s with status := statusWord b d e } = b := statusWord_busy b d e

@[simp] theorem State.done_mk (s : State) (b d : Bool) (e : BitVec 2) :
    State.done { s with status := statusWord b d e } = d := statusWord_done b d e

@[simp] theorem State.err_mk (s : State) (b d : Bool) (e : BitVec 2) :
    State.err { s with status := statusWord b d e } = e := statusWord_err b d e

end Sys2Proof.Machine
end

