-- ==== Sys2Proof/Laws/State.lean ====
section
/-! SUPPORT. Every field after every update of the state, so that no proof unfolds a record update. -/
namespace Sys2Proof.Machine

variable (s : State)

/-! ## `popHost` -/

@[simp] theorem State.popHost_format (rest : List HostOp) : (s.popHost rest).format = s.format := by simp only [State.popHost]

@[simp] theorem State.popHost_width (rest : List HostOp) : (s.popHost rest).width = s.width := by simp only [State.popHost]

@[simp] theorem State.popHost_height (rest : List HostOp) : (s.popHost rest).height = s.height := by simp only [State.popHost]

@[simp] theorem State.popHost_inLen (rest : List HostOp) : (s.popHost rest).inLen = s.inLen := by simp only [State.popHost]

@[simp] theorem State.popHost_status (rest : List HostOp) : (s.popHost rest).status = s.status := by simp only [State.popHost]

@[simp] theorem State.popHost_cur (rest : List HostOp) : (s.popHost rest).cur = s.cur := by simp only [State.popHost]

@[simp] theorem State.popHost_bxi (rest : List HostOp) : (s.popHost rest).bxi = s.bxi := by simp only [State.popHost]

@[simp] theorem State.popHost_byi (rest : List HostOp) : (s.popHost rest).byi = s.byi := by simp only [State.popHost]

@[simp] theorem State.popHost_blk (rest : List HostOp) : (s.popHost rest).blk = s.blk := by simp only [State.popHost]

@[simp] theorem State.popHost_patch (rest : List HostOp) : (s.popHost rest).patch = s.patch := by simp only [State.popHost]

@[simp] theorem State.popHost_inMem (rest : List HostOp) : (s.popHost rest).inMem = s.inMem := by simp only [State.popHost]

@[simp] theorem State.popHost_outMem (rest : List HostOp) : (s.popHost rest).outMem = s.outMem := by simp only [State.popHost]

@[simp] theorem State.popHost_host (rest : List HostOp) : (s.popHost rest).host = rest := rfl

@[simp] theorem State.popHost_rdata (rest : List HostOp) : (s.popHost rest).rdata = s.rdata := by simp only [State.popHost]

@[simp] theorem State.popHost_freeCtr (rest : List HostOp) : (s.popHost rest).freeCtr = s.freeCtr + 1 := rfl

@[simp] theorem State.popHost_outOld (rest : List HostOp) : (s.popHost rest).outOld = s.outOld := by simp only [State.popHost]

@[simp] theorem State.popHost_inLog (rest : List HostOp) : (s.popHost rest).inLog = s.inLog := by simp only [State.popHost]

@[simp] theorem State.popHost_outLog (rest : List HostOp) : (s.popHost rest).outLog = s.outLog := by simp only [State.popHost]

@[simp] theorem State.popHost_busy (rest : List HostOp) : (s.popHost rest).busy = s.busy := by
  simp only [State.busy, State.popHost_status]

@[simp] theorem State.popHost_done (rest : List HostOp) : (s.popHost rest).done = s.done := by
  simp only [State.done, State.popHost_status]

@[simp] theorem State.popHost_err (rest : List HostOp) : (s.popHost rest).err = s.err := by
  simp only [State.err, State.popHost_status]

@[simp] theorem State.popHost_blocksWide (rest : List HostOp) : (s.popHost rest).blocksWide = s.blocksWide := by
  simp only [State.blocksWide, State.popHost_width]

@[simp] theorem State.popHost_blocksHigh (rest : List HostOp) : (s.popHost rest).blocksHigh = s.blocksHigh := by
  simp only [State.blocksHigh, State.popHost_height]

@[simp] theorem State.popHost_nblocks (rest : List HostOp) : (s.popHost rest).nblocks = s.nblocks := by
  simp only [State.nblocks, State.popHost_blocksWide, State.popHost_blocksHigh]

/-! ## `clearResult` -/

@[simp] theorem State.clearResult_format : (s.clearResult).format = s.format := by simp only [State.clearResult]

@[simp] theorem State.clearResult_width : (s.clearResult).width = s.width := by simp only [State.clearResult]

@[simp] theorem State.clearResult_height : (s.clearResult).height = s.height := by simp only [State.clearResult]

@[simp] theorem State.clearResult_inLen : (s.clearResult).inLen = s.inLen := by simp only [State.clearResult]

@[simp] theorem State.clearResult_status : (s.clearResult).status = statusWord s.busy false 0 := rfl

@[simp] theorem State.clearResult_cur : (s.clearResult).cur = s.cur := by simp only [State.clearResult]

@[simp] theorem State.clearResult_bxi : (s.clearResult).bxi = s.bxi := by simp only [State.clearResult]

@[simp] theorem State.clearResult_byi : (s.clearResult).byi = s.byi := by simp only [State.clearResult]

@[simp] theorem State.clearResult_blk : (s.clearResult).blk = s.blk := by simp only [State.clearResult]

@[simp] theorem State.clearResult_patch : (s.clearResult).patch = s.patch := by simp only [State.clearResult]

@[simp] theorem State.clearResult_inMem : (s.clearResult).inMem = s.inMem := by simp only [State.clearResult]

@[simp] theorem State.clearResult_outMem : (s.clearResult).outMem = s.outMem := by simp only [State.clearResult]

@[simp] theorem State.clearResult_host : (s.clearResult).host = s.host := by simp only [State.clearResult]

@[simp] theorem State.clearResult_rdata : (s.clearResult).rdata = s.rdata := by simp only [State.clearResult]

@[simp] theorem State.clearResult_freeCtr : (s.clearResult).freeCtr = s.freeCtr := by simp only [State.clearResult]

@[simp] theorem State.clearResult_outOld : (s.clearResult).outOld = s.outOld := by simp only [State.clearResult]

@[simp] theorem State.clearResult_inLog : (s.clearResult).inLog = s.inLog := by simp only [State.clearResult]

@[simp] theorem State.clearResult_outLog : (s.clearResult).outLog = s.outLog := by simp only [State.clearResult]

@[simp] theorem State.clearResult_blocksWide : (s.clearResult).blocksWide = s.blocksWide := by
  simp only [State.blocksWide, State.clearResult_width]

@[simp] theorem State.clearResult_blocksHigh : (s.clearResult).blocksHigh = s.blocksHigh := by
  simp only [State.blocksHigh, State.clearResult_height]

@[simp] theorem State.clearResult_nblocks : (s.clearResult).nblocks = s.nblocks := by
  simp only [State.nblocks, State.clearResult_blocksWide, State.clearResult_blocksHigh]

/-! ## `raiseError` -/

@[simp] theorem State.raiseError_format (e : ErrorKind) : (s.raiseError e).format = s.format := by simp only [State.raiseError]

@[simp] theorem State.raiseError_width (e : ErrorKind) : (s.raiseError e).width = s.width := by simp only [State.raiseError]

@[simp] theorem State.raiseError_height (e : ErrorKind) : (s.raiseError e).height = s.height := by simp only [State.raiseError]

@[simp] theorem State.raiseError_inLen (e : ErrorKind) : (s.raiseError e).inLen = s.inLen := by simp only [State.raiseError]

@[simp] theorem State.raiseError_status (e : ErrorKind) : (s.raiseError e).status = statusWord false true e.code := rfl

@[simp] theorem State.raiseError_cur (e : ErrorKind) : (s.raiseError e).cur = s.cur := by simp only [State.raiseError]

@[simp] theorem State.raiseError_bxi (e : ErrorKind) : (s.raiseError e).bxi = s.bxi := by simp only [State.raiseError]

@[simp] theorem State.raiseError_byi (e : ErrorKind) : (s.raiseError e).byi = s.byi := by simp only [State.raiseError]

@[simp] theorem State.raiseError_blk (e : ErrorKind) : (s.raiseError e).blk = s.blk := by simp only [State.raiseError]

@[simp] theorem State.raiseError_patch (e : ErrorKind) : (s.raiseError e).patch = s.patch := by simp only [State.raiseError]

@[simp] theorem State.raiseError_inMem (e : ErrorKind) : (s.raiseError e).inMem = s.inMem := by simp only [State.raiseError]

@[simp] theorem State.raiseError_outMem (e : ErrorKind) : (s.raiseError e).outMem = s.outMem := by simp only [State.raiseError]

@[simp] theorem State.raiseError_host (e : ErrorKind) : (s.raiseError e).host = s.host := by simp only [State.raiseError]

@[simp] theorem State.raiseError_rdata (e : ErrorKind) : (s.raiseError e).rdata = s.rdata := by simp only [State.raiseError]

@[simp] theorem State.raiseError_freeCtr (e : ErrorKind) : (s.raiseError e).freeCtr = s.freeCtr := by simp only [State.raiseError]

@[simp] theorem State.raiseError_outOld (e : ErrorKind) : (s.raiseError e).outOld = s.outOld := by simp only [State.raiseError]

@[simp] theorem State.raiseError_inLog (e : ErrorKind) : (s.raiseError e).inLog = s.inLog := by simp only [State.raiseError]

@[simp] theorem State.raiseError_outLog (e : ErrorKind) : (s.raiseError e).outLog = s.outLog := by simp only [State.raiseError]

@[simp] theorem State.raiseError_blocksWide (e : ErrorKind) : (s.raiseError e).blocksWide = s.blocksWide := by
  simp only [State.blocksWide, State.raiseError_width]

@[simp] theorem State.raiseError_blocksHigh (e : ErrorKind) : (s.raiseError e).blocksHigh = s.blocksHigh := by
  simp only [State.blocksHigh, State.raiseError_height]

@[simp] theorem State.raiseError_nblocks (e : ErrorKind) : (s.raiseError e).nblocks = s.nblocks := by
  simp only [State.nblocks, State.raiseError_blocksWide, State.raiseError_blocksHigh]

/-! ## `accept` -/

@[simp] theorem State.accept_format : (s.accept).format = s.format := by simp only [State.accept]

@[simp] theorem State.accept_width : (s.accept).width = s.width := by simp only [State.accept]

@[simp] theorem State.accept_height : (s.accept).height = s.height := by simp only [State.accept]

@[simp] theorem State.accept_inLen : (s.accept).inLen = s.inLen := by simp only [State.accept]

@[simp] theorem State.accept_status : (s.accept).status = statusWord true s.done s.err := rfl

@[simp] theorem State.accept_cur : (s.accept).cur = 0 := rfl

@[simp] theorem State.accept_bxi : (s.accept).bxi = 0 := rfl

@[simp] theorem State.accept_byi : (s.accept).byi = 0 := rfl

@[simp] theorem State.accept_blk : (s.accept).blk = s.blk := by simp only [State.accept]

@[simp] theorem State.accept_patch : (s.accept).patch = s.patch := by simp only [State.accept]

@[simp] theorem State.accept_inMem : (s.accept).inMem = s.inMem := by simp only [State.accept]

@[simp] theorem State.accept_outMem : (s.accept).outMem = s.outMem := by simp only [State.accept]

@[simp] theorem State.accept_host : (s.accept).host = s.host := by simp only [State.accept]

@[simp] theorem State.accept_rdata : (s.accept).rdata = s.rdata := by simp only [State.accept]

@[simp] theorem State.accept_freeCtr : (s.accept).freeCtr = s.freeCtr := by simp only [State.accept]

@[simp] theorem State.accept_outOld : (s.accept).outOld = s.outMem := rfl

@[simp] theorem State.accept_inLog : (s.accept).inLog = [] := rfl

@[simp] theorem State.accept_outLog : (s.accept).outLog = [] := rfl

@[simp] theorem State.accept_blocksWide : (s.accept).blocksWide = s.blocksWide := by
  simp only [State.blocksWide, State.accept_width]

@[simp] theorem State.accept_blocksHigh : (s.accept).blocksHigh = s.blocksHigh := by
  simp only [State.blocksHigh, State.accept_height]

@[simp] theorem State.accept_nblocks : (s.accept).nblocks = s.nblocks := by
  simp only [State.nblocks, State.accept_blocksWide, State.accept_blocksHigh]

/-! ## `fetchBlock` -/

@[simp] theorem State.fetchBlock_format : (s.fetchBlock).format = s.format := by simp only [State.fetchBlock]

@[simp] theorem State.fetchBlock_width : (s.fetchBlock).width = s.width := by simp only [State.fetchBlock]

@[simp] theorem State.fetchBlock_height : (s.fetchBlock).height = s.height := by simp only [State.fetchBlock]

@[simp] theorem State.fetchBlock_inLen : (s.fetchBlock).inLen = s.inLen := by simp only [State.fetchBlock]

@[simp] theorem State.fetchBlock_status : (s.fetchBlock).status = s.status := by simp only [State.fetchBlock]

@[simp] theorem State.fetchBlock_cur : (s.fetchBlock).cur = s.cur := by simp only [State.fetchBlock]

@[simp] theorem State.fetchBlock_bxi : (s.fetchBlock).bxi = s.bxi := by simp only [State.fetchBlock]

@[simp] theorem State.fetchBlock_byi : (s.fetchBlock).byi = s.byi := by simp only [State.fetchBlock]

@[simp] theorem State.fetchBlock_blk : (s.fetchBlock).blk = setLanes s.blk (s.fetchBytes s.cur.toNat (codeBytes s.format)) := rfl

@[simp] theorem State.fetchBlock_patch : (s.fetchBlock).patch = s.patch := by simp only [State.fetchBlock]

@[simp] theorem State.fetchBlock_inMem : (s.fetchBlock).inMem = s.inMem := by simp only [State.fetchBlock]

@[simp] theorem State.fetchBlock_outMem : (s.fetchBlock).outMem = s.outMem := by simp only [State.fetchBlock]

@[simp] theorem State.fetchBlock_host : (s.fetchBlock).host = s.host := by simp only [State.fetchBlock]

@[simp] theorem State.fetchBlock_rdata : (s.fetchBlock).rdata = s.rdata := by simp only [State.fetchBlock]

@[simp] theorem State.fetchBlock_freeCtr : (s.fetchBlock).freeCtr = s.freeCtr := by simp only [State.fetchBlock]

@[simp] theorem State.fetchBlock_outOld : (s.fetchBlock).outOld = s.outOld := by simp only [State.fetchBlock]

@[simp] theorem State.fetchBlock_inLog : (s.fetchBlock).inLog = s.inLog := by simp only [State.fetchBlock]

@[simp] theorem State.fetchBlock_outLog : (s.fetchBlock).outLog = s.outLog := by simp only [State.fetchBlock]

@[simp] theorem State.fetchBlock_busy : (s.fetchBlock).busy = s.busy := by
  simp only [State.busy, State.fetchBlock_status]

@[simp] theorem State.fetchBlock_done : (s.fetchBlock).done = s.done := by
  simp only [State.done, State.fetchBlock_status]

@[simp] theorem State.fetchBlock_err : (s.fetchBlock).err = s.err := by
  simp only [State.err, State.fetchBlock_status]

@[simp] theorem State.fetchBlock_blocksWide : (s.fetchBlock).blocksWide = s.blocksWide := by
  simp only [State.blocksWide, State.fetchBlock_width]

@[simp] theorem State.fetchBlock_blocksHigh : (s.fetchBlock).blocksHigh = s.blocksHigh := by
  simp only [State.blocksHigh, State.fetchBlock_height]

@[simp] theorem State.fetchBlock_nblocks : (s.fetchBlock).nblocks = s.nblocks := by
  simp only [State.nblocks, State.fetchBlock_blocksWide, State.fetchBlock_blocksHigh]

/-! ## `loadPatch` -/

@[simp] theorem State.loadPatch_format (texels : List (List Byte)) : (s.loadPatch texels).format = s.format := by simp only [State.loadPatch]

@[simp] theorem State.loadPatch_width (texels : List (List Byte)) : (s.loadPatch texels).width = s.width := by simp only [State.loadPatch]

@[simp] theorem State.loadPatch_height (texels : List (List Byte)) : (s.loadPatch texels).height = s.height := by simp only [State.loadPatch]

@[simp] theorem State.loadPatch_inLen (texels : List (List Byte)) : (s.loadPatch texels).inLen = s.inLen := by simp only [State.loadPatch]

@[simp] theorem State.loadPatch_status (texels : List (List Byte)) : (s.loadPatch texels).status = s.status := by simp only [State.loadPatch]

@[simp] theorem State.loadPatch_cur (texels : List (List Byte)) : (s.loadPatch texels).cur = s.cur := by simp only [State.loadPatch]

@[simp] theorem State.loadPatch_bxi (texels : List (List Byte)) : (s.loadPatch texels).bxi = s.bxi := by simp only [State.loadPatch]

@[simp] theorem State.loadPatch_byi (texels : List (List Byte)) : (s.loadPatch texels).byi = s.byi := by simp only [State.loadPatch]

@[simp] theorem State.loadPatch_blk (texels : List (List Byte)) : (s.loadPatch texels).blk = s.blk := by simp only [State.loadPatch]

@[simp] theorem State.loadPatch_inMem (texels : List (List Byte)) : (s.loadPatch texels).inMem = s.inMem := by simp only [State.loadPatch]

@[simp] theorem State.loadPatch_outMem (texels : List (List Byte)) : (s.loadPatch texels).outMem = s.outMem := by simp only [State.loadPatch]

@[simp] theorem State.loadPatch_host (texels : List (List Byte)) : (s.loadPatch texels).host = s.host := by simp only [State.loadPatch]

@[simp] theorem State.loadPatch_rdata (texels : List (List Byte)) : (s.loadPatch texels).rdata = s.rdata := by simp only [State.loadPatch]

@[simp] theorem State.loadPatch_freeCtr (texels : List (List Byte)) : (s.loadPatch texels).freeCtr = s.freeCtr := by simp only [State.loadPatch]

@[simp] theorem State.loadPatch_outOld (texels : List (List Byte)) : (s.loadPatch texels).outOld = s.outOld := by simp only [State.loadPatch]

@[simp] theorem State.loadPatch_inLog (texels : List (List Byte)) : (s.loadPatch texels).inLog = s.inLog := by simp only [State.loadPatch]

@[simp] theorem State.loadPatch_outLog (texels : List (List Byte)) : (s.loadPatch texels).outLog = s.outLog := by simp only [State.loadPatch]

@[simp] theorem State.loadPatch_busy (texels : List (List Byte)) : (s.loadPatch texels).busy = s.busy := by
  simp only [State.busy, State.loadPatch_status]

@[simp] theorem State.loadPatch_done (texels : List (List Byte)) : (s.loadPatch texels).done = s.done := by
  simp only [State.done, State.loadPatch_status]

@[simp] theorem State.loadPatch_err (texels : List (List Byte)) : (s.loadPatch texels).err = s.err := by
  simp only [State.err, State.loadPatch_status]

@[simp] theorem State.loadPatch_blocksWide (texels : List (List Byte)) : (s.loadPatch texels).blocksWide = s.blocksWide := by
  simp only [State.blocksWide, State.loadPatch_width]

@[simp] theorem State.loadPatch_blocksHigh (texels : List (List Byte)) : (s.loadPatch texels).blocksHigh = s.blocksHigh := by
  simp only [State.blocksHigh, State.loadPatch_height]

@[simp] theorem State.loadPatch_nblocks (texels : List (List Byte)) : (s.loadPatch texels).nblocks = s.nblocks := by
  simp only [State.nblocks, State.loadPatch_blocksWide, State.loadPatch_blocksHigh]

/-! ## `storePatch` -/

@[simp] theorem State.storePatch_format (f : Format) : (s.storePatch f).format = s.format := by simp only [State.storePatch]

@[simp] theorem State.storePatch_width (f : Format) : (s.storePatch f).width = s.width := by simp only [State.storePatch]

@[simp] theorem State.storePatch_height (f : Format) : (s.storePatch f).height = s.height := by simp only [State.storePatch]

@[simp] theorem State.storePatch_inLen (f : Format) : (s.storePatch f).inLen = s.inLen := by simp only [State.storePatch]

@[simp] theorem State.storePatch_status (f : Format) : (s.storePatch f).status = s.status := by simp only [State.storePatch]

@[simp] theorem State.storePatch_cur (f : Format) : (s.storePatch f).cur = s.cur := by simp only [State.storePatch]

@[simp] theorem State.storePatch_bxi (f : Format) : (s.storePatch f).bxi = s.bxi := by simp only [State.storePatch]

@[simp] theorem State.storePatch_byi (f : Format) : (s.storePatch f).byi = s.byi := by simp only [State.storePatch]

@[simp] theorem State.storePatch_blk (f : Format) : (s.storePatch f).blk = s.blk := by simp only [State.storePatch]

@[simp] theorem State.storePatch_patch (f : Format) : (s.storePatch f).patch = s.patch := by simp only [State.storePatch]

@[simp] theorem State.storePatch_inMem (f : Format) : (s.storePatch f).inMem = s.inMem := by simp only [State.storePatch]

@[simp] theorem State.storePatch_host (f : Format) : (s.storePatch f).host = s.host := by simp only [State.storePatch]

@[simp] theorem State.storePatch_rdata (f : Format) : (s.storePatch f).rdata = s.rdata := by simp only [State.storePatch]

@[simp] theorem State.storePatch_freeCtr (f : Format) : (s.storePatch f).freeCtr = s.freeCtr := by simp only [State.storePatch]

@[simp] theorem State.storePatch_outOld (f : Format) : (s.storePatch f).outOld = s.outOld := by simp only [State.storePatch]

@[simp] theorem State.storePatch_inLog (f : Format) : (s.storePatch f).inLog = s.inLog := by simp only [State.storePatch]

@[simp] theorem State.storePatch_outLog (f : Format) : (s.storePatch f).outLog = s.outLog := by simp only [State.storePatch]

@[simp] theorem State.storePatch_busy (f : Format) : (s.storePatch f).busy = s.busy := by
  simp only [State.busy, State.storePatch_status]

@[simp] theorem State.storePatch_done (f : Format) : (s.storePatch f).done = s.done := by
  simp only [State.done, State.storePatch_status]

@[simp] theorem State.storePatch_err (f : Format) : (s.storePatch f).err = s.err := by
  simp only [State.err, State.storePatch_status]

@[simp] theorem State.storePatch_blocksWide (f : Format) : (s.storePatch f).blocksWide = s.blocksWide := by
  simp only [State.blocksWide, State.storePatch_width]

@[simp] theorem State.storePatch_blocksHigh (f : Format) : (s.storePatch f).blocksHigh = s.blocksHigh := by
  simp only [State.blocksHigh, State.storePatch_height]

@[simp] theorem State.storePatch_nblocks (f : Format) : (s.storePatch f).nblocks = s.nblocks := by
  simp only [State.nblocks, State.storePatch_blocksWide, State.storePatch_blocksHigh]

/-! ## `settleHostOut` -/

@[simp] theorem State.settleHostOut_format : (s.settleHostOut).format = s.format := by simp only [State.settleHostOut]

@[simp] theorem State.settleHostOut_width : (s.settleHostOut).width = s.width := by simp only [State.settleHostOut]

@[simp] theorem State.settleHostOut_height : (s.settleHostOut).height = s.height := by simp only [State.settleHostOut]

@[simp] theorem State.settleHostOut_inLen : (s.settleHostOut).inLen = s.inLen := by simp only [State.settleHostOut]

@[simp] theorem State.settleHostOut_status : (s.settleHostOut).status = s.status := by simp only [State.settleHostOut]

@[simp] theorem State.settleHostOut_cur : (s.settleHostOut).cur = s.cur := by simp only [State.settleHostOut]

@[simp] theorem State.settleHostOut_bxi : (s.settleHostOut).bxi = s.bxi := by simp only [State.settleHostOut]

@[simp] theorem State.settleHostOut_byi : (s.settleHostOut).byi = s.byi := by simp only [State.settleHostOut]

@[simp] theorem State.settleHostOut_blk : (s.settleHostOut).blk = s.blk := by simp only [State.settleHostOut]

@[simp] theorem State.settleHostOut_patch : (s.settleHostOut).patch = s.patch := by simp only [State.settleHostOut]

@[simp] theorem State.settleHostOut_inMem : (s.settleHostOut).inMem = s.inMem := by simp only [State.settleHostOut]

@[simp] theorem State.settleHostOut_host : (s.settleHostOut).host = s.host := by simp only [State.settleHostOut]

@[simp] theorem State.settleHostOut_rdata : (s.settleHostOut).rdata = s.rdata := by simp only [State.settleHostOut]

@[simp] theorem State.settleHostOut_freeCtr : (s.settleHostOut).freeCtr = s.freeCtr := by simp only [State.settleHostOut]

@[simp] theorem State.settleHostOut_outOld : (s.settleHostOut).outOld = s.outOld := by simp only [State.settleHostOut]

@[simp] theorem State.settleHostOut_inLog : (s.settleHostOut).inLog = s.inLog := by simp only [State.settleHostOut]

@[simp] theorem State.settleHostOut_outLog : (s.settleHostOut).outLog = s.outLog := by simp only [State.settleHostOut]

@[simp] theorem State.settleHostOut_busy : (s.settleHostOut).busy = s.busy := by
  simp only [State.busy, State.settleHostOut_status]

@[simp] theorem State.settleHostOut_done : (s.settleHostOut).done = s.done := by
  simp only [State.done, State.settleHostOut_status]

@[simp] theorem State.settleHostOut_err : (s.settleHostOut).err = s.err := by
  simp only [State.err, State.settleHostOut_status]

@[simp] theorem State.settleHostOut_blocksWide : (s.settleHostOut).blocksWide = s.blocksWide := by
  simp only [State.blocksWide, State.settleHostOut_width]

@[simp] theorem State.settleHostOut_blocksHigh : (s.settleHostOut).blocksHigh = s.blocksHigh := by
  simp only [State.blocksHigh, State.settleHostOut_height]

@[simp] theorem State.settleHostOut_nblocks : (s.settleHostOut).nblocks = s.nblocks := by
  simp only [State.nblocks, State.settleHostOut_blocksWide, State.settleHostOut_blocksHigh]

/-! ## `settleBlock` -/

@[simp] theorem State.settleBlock_format (f : Format) (n : Nat) : (s.settleBlock f n).format = s.format := by simp only [State.settleBlock, State.settleHostOut_format]

@[simp] theorem State.settleBlock_width (f : Format) (n : Nat) : (s.settleBlock f n).width = s.width := by simp only [State.settleBlock, State.settleHostOut_width]

@[simp] theorem State.settleBlock_height (f : Format) (n : Nat) : (s.settleBlock f n).height = s.height := by simp only [State.settleBlock, State.settleHostOut_height]

@[simp] theorem State.settleBlock_inLen (f : Format) (n : Nat) : (s.settleBlock f n).inLen = s.inLen := by simp only [State.settleBlock, State.settleHostOut_inLen]

@[simp] theorem State.settleBlock_status (f : Format) (n : Nat) : (s.settleBlock f n).status = s.status := by simp only [State.settleBlock, State.settleHostOut_status]

@[simp] theorem State.settleBlock_cur (f : Format) (n : Nat) : (s.settleBlock f n).cur = s.cur := by simp only [State.settleBlock, State.settleHostOut_cur]

@[simp] theorem State.settleBlock_bxi (f : Format) (n : Nat) : (s.settleBlock f n).bxi = s.bxi := by simp only [State.settleBlock, State.settleHostOut_bxi]

@[simp] theorem State.settleBlock_byi (f : Format) (n : Nat) : (s.settleBlock f n).byi = s.byi := by simp only [State.settleBlock, State.settleHostOut_byi]

@[simp] theorem State.settleBlock_blk (f : Format) (n : Nat) : (s.settleBlock f n).blk = s.blk := by simp only [State.settleBlock, State.settleHostOut_blk]

@[simp] theorem State.settleBlock_patch (f : Format) (n : Nat) : (s.settleBlock f n).patch = s.patch := by simp only [State.settleBlock, State.settleHostOut_patch]

@[simp] theorem State.settleBlock_inMem (f : Format) (n : Nat) : (s.settleBlock f n).inMem = s.inMem := by simp only [State.settleBlock, State.settleHostOut_inMem]

@[simp] theorem State.settleBlock_host (f : Format) (n : Nat) : (s.settleBlock f n).host = s.host := by simp only [State.settleBlock, State.settleHostOut_host]

@[simp] theorem State.settleBlock_rdata (f : Format) (n : Nat) : (s.settleBlock f n).rdata = s.rdata := by simp only [State.settleBlock, State.settleHostOut_rdata]

@[simp] theorem State.settleBlock_freeCtr (f : Format) (n : Nat) : (s.settleBlock f n).freeCtr = s.freeCtr := by simp only [State.settleBlock, State.settleHostOut_freeCtr]

@[simp] theorem State.settleBlock_outOld (f : Format) (n : Nat) : (s.settleBlock f n).outOld = s.outOld := by simp only [State.settleBlock, State.settleHostOut_outOld]

@[simp] theorem State.settleBlock_inLog (f : Format) (n : Nat) : (s.settleBlock f n).inLog = s.inLog := by simp only [State.settleBlock, State.settleHostOut_inLog]

@[simp] theorem State.settleBlock_outLog (f : Format) (n : Nat) : (s.settleBlock f n).outLog = s.outLog := by simp only [State.settleBlock, State.settleHostOut_outLog]

@[simp] theorem State.settleBlock_busy (f : Format) (n : Nat) : (s.settleBlock f n).busy = s.busy := by
  simp only [State.busy, State.settleBlock_status]

@[simp] theorem State.settleBlock_done (f : Format) (n : Nat) : (s.settleBlock f n).done = s.done := by
  simp only [State.done, State.settleBlock_status]

@[simp] theorem State.settleBlock_err (f : Format) (n : Nat) : (s.settleBlock f n).err = s.err := by
  simp only [State.err, State.settleBlock_status]

@[simp] theorem State.settleBlock_blocksWide (f : Format) (n : Nat) : (s.settleBlock f n).blocksWide = s.blocksWide := by
  simp only [State.blocksWide, State.settleBlock_width]

@[simp] theorem State.settleBlock_blocksHigh (f : Format) (n : Nat) : (s.settleBlock f n).blocksHigh = s.blocksHigh := by
  simp only [State.blocksHigh, State.settleBlock_height]

@[simp] theorem State.settleBlock_nblocks (f : Format) (n : Nat) : (s.settleBlock f n).nblocks = s.nblocks := by
  simp only [State.nblocks, State.settleBlock_blocksWide, State.settleBlock_blocksHigh]

/-! ## `hostReadReg` -/

@[simp] theorem State.hostReadReg_format (r : Reg) : (s.hostReadReg r).format = s.format := by simp only [State.hostReadReg]

@[simp] theorem State.hostReadReg_width (r : Reg) : (s.hostReadReg r).width = s.width := by simp only [State.hostReadReg]

@[simp] theorem State.hostReadReg_height (r : Reg) : (s.hostReadReg r).height = s.height := by simp only [State.hostReadReg]

@[simp] theorem State.hostReadReg_inLen (r : Reg) : (s.hostReadReg r).inLen = s.inLen := by simp only [State.hostReadReg]

@[simp] theorem State.hostReadReg_status (r : Reg) : (s.hostReadReg r).status = s.status := by simp only [State.hostReadReg]

@[simp] theorem State.hostReadReg_cur (r : Reg) : (s.hostReadReg r).cur = s.cur := by simp only [State.hostReadReg]

@[simp] theorem State.hostReadReg_bxi (r : Reg) : (s.hostReadReg r).bxi = s.bxi := by simp only [State.hostReadReg]

@[simp] theorem State.hostReadReg_byi (r : Reg) : (s.hostReadReg r).byi = s.byi := by simp only [State.hostReadReg]

@[simp] theorem State.hostReadReg_blk (r : Reg) : (s.hostReadReg r).blk = s.blk := by simp only [State.hostReadReg]

@[simp] theorem State.hostReadReg_patch (r : Reg) : (s.hostReadReg r).patch = s.patch := by simp only [State.hostReadReg]

@[simp] theorem State.hostReadReg_inMem (r : Reg) : (s.hostReadReg r).inMem = s.inMem := by simp only [State.hostReadReg]

@[simp] theorem State.hostReadReg_outMem (r : Reg) : (s.hostReadReg r).outMem = s.outMem := by simp only [State.hostReadReg]

@[simp] theorem State.hostReadReg_host (r : Reg) : (s.hostReadReg r).host = s.host := by simp only [State.hostReadReg]

@[simp] theorem State.hostReadReg_rdata (r : Reg) : (s.hostReadReg r).rdata = s.readReg r := rfl

@[simp] theorem State.hostReadReg_freeCtr (r : Reg) : (s.hostReadReg r).freeCtr = s.freeCtr := by simp only [State.hostReadReg]

@[simp] theorem State.hostReadReg_outOld (r : Reg) : (s.hostReadReg r).outOld = s.outOld := by simp only [State.hostReadReg]

@[simp] theorem State.hostReadReg_inLog (r : Reg) : (s.hostReadReg r).inLog = s.inLog := by simp only [State.hostReadReg]

@[simp] theorem State.hostReadReg_outLog (r : Reg) : (s.hostReadReg r).outLog = s.outLog := by simp only [State.hostReadReg]

@[simp] theorem State.hostReadReg_busy (r : Reg) : (s.hostReadReg r).busy = s.busy := by
  simp only [State.busy, State.hostReadReg_status]

@[simp] theorem State.hostReadReg_done (r : Reg) : (s.hostReadReg r).done = s.done := by
  simp only [State.done, State.hostReadReg_status]

@[simp] theorem State.hostReadReg_err (r : Reg) : (s.hostReadReg r).err = s.err := by
  simp only [State.err, State.hostReadReg_status]

@[simp] theorem State.hostReadReg_blocksWide (r : Reg) : (s.hostReadReg r).blocksWide = s.blocksWide := by
  simp only [State.blocksWide, State.hostReadReg_width]

@[simp] theorem State.hostReadReg_blocksHigh (r : Reg) : (s.hostReadReg r).blocksHigh = s.blocksHigh := by
  simp only [State.blocksHigh, State.hostReadReg_height]

@[simp] theorem State.hostReadReg_nblocks (r : Reg) : (s.hostReadReg r).nblocks = s.nblocks := by
  simp only [State.nblocks, State.hostReadReg_blocksWide, State.hostReadReg_blocksHigh]

/-! ## `hostReadOut` -/

@[simp] theorem State.hostReadOut_format (a : Nat) : (s.hostReadOut a).format = s.format := by simp only [State.hostReadOut]

@[simp] theorem State.hostReadOut_width (a : Nat) : (s.hostReadOut a).width = s.width := by simp only [State.hostReadOut]

@[simp] theorem State.hostReadOut_height (a : Nat) : (s.hostReadOut a).height = s.height := by simp only [State.hostReadOut]

@[simp] theorem State.hostReadOut_inLen (a : Nat) : (s.hostReadOut a).inLen = s.inLen := by simp only [State.hostReadOut]

@[simp] theorem State.hostReadOut_status (a : Nat) : (s.hostReadOut a).status = s.status := by simp only [State.hostReadOut]

@[simp] theorem State.hostReadOut_cur (a : Nat) : (s.hostReadOut a).cur = s.cur := by simp only [State.hostReadOut]

@[simp] theorem State.hostReadOut_bxi (a : Nat) : (s.hostReadOut a).bxi = s.bxi := by simp only [State.hostReadOut]

@[simp] theorem State.hostReadOut_byi (a : Nat) : (s.hostReadOut a).byi = s.byi := by simp only [State.hostReadOut]

@[simp] theorem State.hostReadOut_blk (a : Nat) : (s.hostReadOut a).blk = s.blk := by simp only [State.hostReadOut]

@[simp] theorem State.hostReadOut_patch (a : Nat) : (s.hostReadOut a).patch = s.patch := by simp only [State.hostReadOut]

@[simp] theorem State.hostReadOut_inMem (a : Nat) : (s.hostReadOut a).inMem = s.inMem := by simp only [State.hostReadOut]

@[simp] theorem State.hostReadOut_outMem (a : Nat) : (s.hostReadOut a).outMem = s.outMem := by simp only [State.hostReadOut]

@[simp] theorem State.hostReadOut_host (a : Nat) : (s.hostReadOut a).host = s.host := by simp only [State.hostReadOut]

@[simp] theorem State.hostReadOut_rdata (a : Nat) : (s.hostReadOut a).rdata = (s.outByteSeen a).setWidth 64 := rfl

@[simp] theorem State.hostReadOut_freeCtr (a : Nat) : (s.hostReadOut a).freeCtr = s.freeCtr := by simp only [State.hostReadOut]

@[simp] theorem State.hostReadOut_outOld (a : Nat) : (s.hostReadOut a).outOld = s.outOld := by simp only [State.hostReadOut]

@[simp] theorem State.hostReadOut_inLog (a : Nat) : (s.hostReadOut a).inLog = s.inLog := by simp only [State.hostReadOut]

@[simp] theorem State.hostReadOut_outLog (a : Nat) : (s.hostReadOut a).outLog = s.outLog := by simp only [State.hostReadOut]

@[simp] theorem State.hostReadOut_busy (a : Nat) : (s.hostReadOut a).busy = s.busy := by
  simp only [State.busy, State.hostReadOut_status]

@[simp] theorem State.hostReadOut_done (a : Nat) : (s.hostReadOut a).done = s.done := by
  simp only [State.done, State.hostReadOut_status]

@[simp] theorem State.hostReadOut_err (a : Nat) : (s.hostReadOut a).err = s.err := by
  simp only [State.err, State.hostReadOut_status]

@[simp] theorem State.hostReadOut_blocksWide (a : Nat) : (s.hostReadOut a).blocksWide = s.blocksWide := by
  simp only [State.blocksWide, State.hostReadOut_width]

@[simp] theorem State.hostReadOut_blocksHigh (a : Nat) : (s.hostReadOut a).blocksHigh = s.blocksHigh := by
  simp only [State.blocksHigh, State.hostReadOut_height]

@[simp] theorem State.hostReadOut_nblocks (a : Nat) : (s.hostReadOut a).nblocks = s.nblocks := by
  simp only [State.nblocks, State.hostReadOut_blocksWide, State.hostReadOut_blocksHigh]

@[simp] theorem State.clearResult_busy : s.clearResult.busy = s.busy := statusWord_busy _ _ _

@[simp] theorem State.clearResult_done : s.clearResult.done = false := statusWord_done _ _ _

@[simp] theorem State.clearResult_err : s.clearResult.err = 0 := statusWord_err _ _ _

@[simp] theorem State.raiseError_busy (e : ErrorKind) : (s.raiseError e).busy = false := statusWord_busy _ _ _

@[simp] theorem State.raiseError_done (e : ErrorKind) : (s.raiseError e).done = true := statusWord_done _ _ _

@[simp] theorem State.raiseError_err (e : ErrorKind) : (s.raiseError e).err = e.code := statusWord_err _ _ _

@[simp] theorem State.accept_busy : s.accept.busy = true := statusWord_busy _ _ _

@[simp] theorem State.accept_done : s.accept.done = s.done := statusWord_done _ _ _

@[simp] theorem State.accept_err : s.accept.err = s.err := statusWord_err _ _ _

/-! ## `advance` -/

@[simp] theorem State.advance_format (f : Format) : (s.advance f).format = s.format := by
  simp only [State.advance]; split; · rfl
  split <;> rfl

@[simp] theorem State.advance_width (f : Format) : (s.advance f).width = s.width := by
  simp only [State.advance]; split; · rfl
  split <;> rfl

@[simp] theorem State.advance_height (f : Format) : (s.advance f).height = s.height := by
  simp only [State.advance]; split; · rfl
  split <;> rfl

@[simp] theorem State.advance_inLen (f : Format) : (s.advance f).inLen = s.inLen := by
  simp only [State.advance]; split; · rfl
  split <;> rfl

@[simp] theorem State.advance_blk (f : Format) : (s.advance f).blk = s.blk := by
  simp only [State.advance]; split; · rfl
  split <;> rfl

@[simp] theorem State.advance_patch (f : Format) : (s.advance f).patch = s.patch := by
  simp only [State.advance]; split; · rfl
  split <;> rfl

@[simp] theorem State.advance_inMem (f : Format) : (s.advance f).inMem = s.inMem := by
  simp only [State.advance]; split; · rfl
  split <;> rfl

@[simp] theorem State.advance_outMem (f : Format) : (s.advance f).outMem = s.outMem := by
  simp only [State.advance]; split; · rfl
  split <;> rfl

@[simp] theorem State.advance_host (f : Format) : (s.advance f).host = s.host := by
  simp only [State.advance]; split; · rfl
  split <;> rfl

@[simp] theorem State.advance_rdata (f : Format) : (s.advance f).rdata = s.rdata := by
  simp only [State.advance]; split; · rfl
  split <;> rfl

@[simp] theorem State.advance_freeCtr (f : Format) : (s.advance f).freeCtr = s.freeCtr := by
  simp only [State.advance]; split; · rfl
  split <;> rfl

@[simp] theorem State.advance_outOld (f : Format) : (s.advance f).outOld = s.outOld := by
  simp only [State.advance]; split; · rfl
  split <;> rfl

@[simp] theorem State.advance_inLog (f : Format) : (s.advance f).inLog = s.inLog := by
  simp only [State.advance]; split; · rfl
  split <;> rfl

@[simp] theorem State.advance_outLog (f : Format) : (s.advance f).outLog = s.outLog := by
  simp only [State.advance]; split; · rfl
  split <;> rfl

@[simp] theorem State.advance_blocksWide (f : Format) : (s.advance f).blocksWide = s.blocksWide := by
  simp only [State.blocksWide, State.advance_width]

@[simp] theorem State.advance_blocksHigh (f : Format) : (s.advance f).blocksHigh = s.blocksHigh := by
  simp only [State.blocksHigh, State.advance_height]

@[simp] theorem State.advance_nblocks (f : Format) : (s.advance f).nblocks = s.nblocks := by
  simp only [State.nblocks, State.advance_blocksWide, State.advance_blocksHigh]

@[simp] theorem State.advance_cur (f : Format) : (s.advance f).cur = s.cur + BitVec.ofNat 65 f.size := by
  simp only [State.advance]; split; · rfl
  split <;> rfl

/-! ## `finishBlock` -/

@[simp] theorem State.finishBlock_format (f : Format) (texels : List (List Byte)) :
    (s.finishBlock f texels).format = s.format := by simp [State.finishBlock]

@[simp] theorem State.finishBlock_width (f : Format) (texels : List (List Byte)) :
    (s.finishBlock f texels).width = s.width := by simp [State.finishBlock]

@[simp] theorem State.finishBlock_height (f : Format) (texels : List (List Byte)) :
    (s.finishBlock f texels).height = s.height := by simp [State.finishBlock]

@[simp] theorem State.finishBlock_inLen (f : Format) (texels : List (List Byte)) :
    (s.finishBlock f texels).inLen = s.inLen := by simp [State.finishBlock]

@[simp] theorem State.finishBlock_blk (f : Format) (texels : List (List Byte)) :
    (s.finishBlock f texels).blk = s.blk := by simp [State.finishBlock]

@[simp] theorem State.finishBlock_inMem (f : Format) (texels : List (List Byte)) :
    (s.finishBlock f texels).inMem = s.inMem := by simp [State.finishBlock]

@[simp] theorem State.finishBlock_host (f : Format) (texels : List (List Byte)) :
    (s.finishBlock f texels).host = s.host := by simp [State.finishBlock]

@[simp] theorem State.finishBlock_rdata (f : Format) (texels : List (List Byte)) :
    (s.finishBlock f texels).rdata = s.rdata := by simp [State.finishBlock]

@[simp] theorem State.finishBlock_freeCtr (f : Format) (texels : List (List Byte)) :
    (s.finishBlock f texels).freeCtr = s.freeCtr := by simp [State.finishBlock]

@[simp] theorem State.finishBlock_outOld (f : Format) (texels : List (List Byte)) :
    (s.finishBlock f texels).outOld = s.outOld := by simp [State.finishBlock]

@[simp] theorem State.finishBlock_inLog (f : Format) (texels : List (List Byte)) :
    (s.finishBlock f texels).inLog = s.inLog := by simp [State.finishBlock]

@[simp] theorem State.finishBlock_outLog (f : Format) (texels : List (List Byte)) :
    (s.finishBlock f texels).outLog = s.outLog := by simp [State.finishBlock]

@[simp] theorem State.finishBlock_blocksWide (f : Format) (texels : List (List Byte)) :
    (s.finishBlock f texels).blocksWide = s.blocksWide := by simp [State.finishBlock]

@[simp] theorem State.finishBlock_blocksHigh (f : Format) (texels : List (List Byte)) :
    (s.finishBlock f texels).blocksHigh = s.blocksHigh := by simp [State.finishBlock]

@[simp] theorem State.finishBlock_nblocks (f : Format) (texels : List (List Byte)) :
    (s.finishBlock f texels).nblocks = s.nblocks := by simp [State.finishBlock]

@[simp] theorem State.finishBlock_cur (f : Format) (texels : List (List Byte)) :
    (s.finishBlock f texels).cur = s.cur + BitVec.ofNat 65 f.size := by simp [State.finishBlock]

@[simp] theorem State.finishBlock_patch (f : Format) (texels : List (List Byte)) :
    (s.finishBlock f texels).patch = (s.loadPatch texels).patch := by simp [State.finishBlock]

@[simp] theorem State.finishBlock_outMem (f : Format) (texels : List (List Byte)) :
    (s.finishBlock f texels).outMem = ((s.loadPatch texels).storePatch f).outMem := by simp [State.finishBlock]

end Sys2Proof.Machine
end

