-- ==== Sys2Proof/Laws/Store.lean ====
section
/-! SUPPORT. The texel registers and the sixteen clipped stores of a block step, each said once. -/
namespace Sys2Proof.Machine

/-! ## PATCH -/

/-- A texel register after the patch is loaded. -/
theorem State.texelReg_loadPatch (s : State) (texels : List (List Byte)) (t : Nat) (ht : t < 16) :
    (s.loadPatch texels).texelReg t = setLanes (s.texelReg t) (texels.getD t []) := by
  simp only [State.texelReg, State.loadPatch]
  rw [Vector.getElem?_eq_getElem ht, Vector.getElem?_eq_getElem ht, Option.getD_some, Option.getD_some, Vector.getElem_ofFn]
  rfl

/-- The channel bytes of a texel register after the patch is loaded. -/
theorem State.lanes_loadPatch (s : State) (texels : List (List Byte)) (t : Nat) (ht : t < 16)
    (h : (texels.getD t []).length ≤ 4) :
    lanes (texels.getD t []).length ((s.loadPatch texels).texelReg t) = texels.getD t [] := by
  rw [State.texelReg_loadPatch s texels t ht]
  exact lanes_setLanes _ _ (by omega)

@[simp] theorem State.texelAddr_loadPatch (s : State) (texels : List (List Byte)) (f : Format) (t : Nat) :
    (s.loadPatch texels).texelAddr f t = s.texelAddr f t := by
  simp only [State.texelAddr, State.loadPatch_bxi, State.loadPatch_byi, State.loadPatch_width, State.loadPatch_height]

/-! ## Texel addresses -/

/-- A texel that is stored lies inside the image, and its address is that of its pixel (R124). -/
theorem State.texelAddr_some (s : State) (f : Format) (t a : Nat) (h : s.texelAddr f t = some a) :
    4 * s.bxi.toNat + t % 4 < s.width.toNat ∧ 4 * s.byi.toNat + t / 4 < s.height.toNat ∧
    a = ((4 * s.byi.toNat + t / 4) * s.width.toNat + (4 * s.bxi.toNat + t % 4)) * f.chan := by
  simp only [State.texelAddr] at h
  split at h
  · next hin => exact ⟨hin.1, hin.2, (Option.some.inj h).symm⟩
  · exact absurd h (by simp)

/-- Two pixels of an image of width `w` with one pixel number are one pixel. -/
theorem pixel_unique (w x y x' y' : Nat) (hx : x < w) (hx' : x' < w) (h : y * w + x = y' * w + x') : x = x' ∧ y = y' := by
  have hw : 0 < w := by omega
  have h1 := congrArg (· % w) h
  have h2 := congrArg (· / w) h
  simp only [Nat.mul_add_mod_self_right, Nat.mod_eq_of_lt hx, Nat.mod_eq_of_lt hx'] at h1
  simp only [Nat.mul_comm _ w, Nat.mul_add_div hw, Nat.div_eq_of_lt hx, Nat.div_eq_of_lt hx', Nat.add_zero] at h2
  exact ⟨h1, h2⟩

/-- Two different texels of a block are stored to disjoint runs of bytes (R127). -/
theorem State.texelAddr_disjoint (s : State) (f : Format) (t u a b : Nat) (hne : t ≠ u)
    (ha : s.texelAddr f t = some a) (hb : s.texelAddr f u = some b) : a + f.chan ≤ b ∨ b + f.chan ≤ a := by
  obtain ⟨hxt, -, rfl⟩ := s.texelAddr_some f t a ha
  obtain ⟨hxu, -, rfl⟩ := s.texelAddr_some f u b hb
  set p := (4 * s.byi.toNat + t / 4) * s.width.toNat + (4 * s.bxi.toNat + t % 4) with hp
  set q := (4 * s.byi.toNat + u / 4) * s.width.toNat + (4 * s.bxi.toNat + u % 4) with hq
  have hpq : p ≠ q := fun e => by
    have := pixel_unique _ _ _ _ _ hxt hxu (hp ▸ hq ▸ e)
    omega
  rcases Nat.lt_or_gt_of_ne hpq with h | h
  · left
    calc p * f.chan + f.chan = (p + 1) * f.chan := by ring
      _ ≤ q * f.chan := Nat.mul_le_mul_right _ h
  · right
    calc q * f.chan + f.chan = (q + 1) * f.chan := by ring
      _ ≤ p * f.chan := Nat.mul_le_mul_right _ h

/-! ## Stores -/

theorem State.storeTexel_read (s : State) (f : Format) (m : Memory) (t o : Nat) :
    (s.storeTexel f m t).read o =
      match s.texelAddr f t with
      | some a => if a ≤ o ∧ o < a + f.chan then (lanes f.chan (s.texelReg t)).getD (o - a) 0 else m.read o
      | none => m.read o := by
  unfold State.storeTexel
  cases s.texelAddr f t with
  | some a => dsimp only; rw [Memory.read_writeBytes, lanes, leBytes_length]
  | none => rfl

theorem State.storeTexel_wf (s : State) (f : Format) (m : Memory) (t : Nat) (h : m.wf) : (s.storeTexel f m t).wf := by
  unfold State.storeTexel
  split
  · exact Memory.writeBytes_wf _ _ _ h
  · exact h

/-- The bytes of a stored texel are the channel bytes of its register (R124). -/
theorem State.storePatch_stored (s : State) (f : Format) (t a k : Nat) (ht : t < 16) (ha : s.texelAddr f t = some a)
    (hk : k < f.chan) : (s.storePatch f).outMem.read (a + k) = (lanes f.chan (s.texelReg t)).getD k 0 := by
  have h : ∀ n, t < n → ((List.range n).foldl (s.storeTexel f) s.outMem).read (a + k) =
      (lanes f.chan (s.texelReg t)).getD k 0 := by
    intro n
    induction n with
    | zero => intro h; omega
    | succ n ih =>
      intro hn
      rw [List.range_succ, List.foldl_append, List.foldl_cons, List.foldl_nil, State.storeTexel_read]
      by_cases htn : t = n
      · subst htn
        rw [ha]
        dsimp only
        rw [if_pos (by omega), Nat.add_sub_cancel_left]
      · rw [← ih (by omega)]
        split
        · next b hb =>
          have := s.texelAddr_disjoint f t n a b htn ha hb
          rw [if_neg (by omega)]
        · rfl
  exact h 16 ht

/-- A byte that belongs to no stored texel keeps its value (R124). -/
theorem State.storePatch_kept (s : State) (f : Format) (o : Nat)
    (h : ∀ t, t < 16 → ∀ a, s.texelAddr f t = some a → o < a ∨ a + f.chan ≤ o) :
    (s.storePatch f).outMem.read o = s.outMem.read o := by
  have h : ∀ n, n ≤ 16 → ((List.range n).foldl (s.storeTexel f) s.outMem).read o = s.outMem.read o := by
    intro n
    induction n with
    | zero => intro _; rfl
    | succ n ih =>
      intro hn
      rw [List.range_succ, List.foldl_append, List.foldl_cons, List.foldl_nil, State.storeTexel_read, ← ih (by omega)]
      split
      · next a ha =>
        have := h n (by omega) a ha
        rw [if_neg (by omega)]
      · rfl
  exact h 16 le_rfl

/-- The stores keep the canonical form. -/
theorem State.storePatch_wf (s : State) (f : Format) (h : s.outMem.wf) : (s.storePatch f).outMem.wf := by
  have h : ∀ (l : List Nat) (m : Memory), m.wf → (l.foldl (s.storeTexel f) m).wf := by
    intro l
    induction l with
    | nil => exact fun m hm => hm
    | cons t l ih => exact fun m hm => ih _ (s.storeTexel_wf f m t hm)
  exact h _ _ ‹_›

/-! ## The host's bytes -/

@[simp] theorem logged_nil (a : Nat) : logged [] a = [] := rfl

@[simp] theorem pick_nil (use : FreeUse) (ctr a : Nat) (b : Byte) : pick use ctr a b [] = b := rfl

/-- A free choice is the byte or one of its alternatives. -/
theorem pick_mem (use : FreeUse) (ctr a : Nat) (b : Byte) (cs : List Byte) : pick use ctr a b cs ∈ b :: cs := by
  cases cs with
  | nil => simp
  | cons c cs =>
    have h : Config.freeChoice use ctr a % (cs.length + 2) < (b :: c :: cs).length := Nat.mod_lt _ (by simp)
    rw [pick, List.getD_eq_getElem _ _ h]
    exact List.getElem_mem h

/-- Where the host wrote no byte of `OUT` during the command, settling changes nothing. -/
theorem State.settleHostOut_nil (s : State) (h : s.outLog = []) : s.settleHostOut = s := by
  cases s
  simp only [State.settleHostOut] at *
  subst h
  rfl

theorem State.settleHostOut_wf (s : State) (h : s.outMem.wf) : s.settleHostOut.outMem.wf := by
  unfold State.settleHostOut
  dsimp only
  generalize s.outLog = l, s.outMem = m at *
  have h : ∀ (l l' : List Host.Cell) (m : Memory), m.wf → (l.foldl (fun m c =>
      Memory.write m c.1 (pick .store s.freeCtr c.1 (m.read c.1) (logged l' c.1))) m).wf := by
    intro l l'
    induction l with
    | nil => exact fun m hm => hm
    | cons c l ih => exact fun m hm => ih _ (Memory.write_wf _ _ _ hm)
  exact h _ _ _ ‹_›

/-- A block none of whose bytes the host rewrote is not stored again (R159). -/
theorem State.mixedOut_untouched (s : State) (f : Format) (n : Nat) (h : ∀ c ∈ s.inLog, c.1 / f.size ≠ n) :
    s.mixedOut f n = s.outMem := by
  rw [State.mixedOut, if_neg]
  simpa using h

/-- Where the host rewrote no byte of the block and wrote no byte of `OUT`, settling changes nothing. -/
theorem State.settleBlock_untouched (s : State) (f : Format) (n : Nat) (h : ∀ c ∈ s.inLog, c.1 / f.size ≠ n)
    (ho : s.outLog = []) : s.settleBlock f n = s := by
  rw [State.settleBlock, State.mixedOut_untouched s f n h, State.settleHostOut_nil _ ho]

theorem State.settleBlock_wf (s : State) (f : Format) (n : Nat) (h : s.outMem.wf) : (s.settleBlock f n).outMem.wf := by
  refine State.settleHostOut_wf _ ?_
  show (s.mixedOut f n).wf
  unfold State.mixedOut
  split
  · exact State.storePatch_wf _ _ h
  · exact h

end Sys2Proof.Machine
end

