-- ==== Sys2Proof/Laws/Sequencer.lean ====
section
/-! SUPPORT. Fetch, decode and execute, said once; the core's own step and the check step by their cases. -/
namespace Sys2Proof.Machine

/-! ## The opcode map -/

theorem formatOf_code (f : Format) : formatOf f.code = some f := by cases f <;> decide

theorem code_of_formatOf : ∀ (code : BitVec 3) (f : Format), formatOf code = some f → code = f.code := by
  intro code f
  revert code
  cases f <;> decide

theorem codeBytes_of_formatOf (code : BitVec 3) (f : Format) (h : formatOf code = some f) : codeBytes code = f.size := by
  rw [codeBytes, h]

theorem codeBytes_of_none (code : BitVec 3) (h : formatOf code = none) : codeBytes code = 0 := by
  rw [codeBytes, h]

theorem codeBytes_le (code : BitVec 3) : codeBytes code ≤ 16 := by
  revert code; decide

theorem lookupOp_of_formatOf : ∀ (code : BitVec 3) (f : Format), formatOf code = some f → lookupOp code = some (.dec f) := by
  intro code f
  revert code
  cases f <;> decide

theorem lookupOp_of_none : ∀ code : BitVec 3, formatOf code = none →
    lookupOp code = some .rsvd0 ∨ lookupOp code = some .rsvd6 ∨ lookupOp code = some .rsvd7 := by decide

/-- Decoding a legal code: a whole block, then the rest of the stream. -/
theorem decode_legal (code : BitVec 3) (f : Format) (stream : List Byte) (h : formatOf code = some f) :
    decode code stream = if stream.length < f.size then .error .truncatedBlock
      else .ok (decodeBlock f (stream.take f.size), stream.drop f.size) := by
  rw [decode, lookupOp_of_formatOf code f h]

/-! ## Fetch -/

theorem State.fetchBytes_length (s : State) (a n : Nat) : (s.fetchBytes a n).length = n := by
  simp [State.fetchBytes]

/-- The lanes of the block register that a fetch loads hold the bytes fetched. -/
theorem State.lanes_fetchBlock (s : State) : lanes (codeBytes s.format) s.fetchBlock.blk =
    s.fetchBytes s.cur.toNat (codeBytes s.format) := by
  have hl := s.fetchBytes_length s.cur.toNat (codeBytes s.format)
  have hc := codeBytes_le s.format
  have h := lanes_setLanes s.blk (s.fetchBytes s.cur.toNat (codeBytes s.format)) (by omega)
  rwa [hl] at h

/-- A reserved code fetches nothing: the state is as it was. -/
theorem State.fetchBlock_reserved (s : State) (h : formatOf s.format = none) : s.fetchBlock = s := by
  simp only [State.fetchBlock, codeBytes_of_none _ h]
  simp [State.fetchBytes, setLanes_nil]

/-! ## Execute -/

/-- What a decode instruction does: the block step of its format (R111, R122). -/
theorem exec_decodeBlock (f : Format) (bs : List Byte) (s : State) :
    exec (decodeBlock f bs) s = .next (s.finishBlock f (decPatch f bs)) := by
  cases f <;> rfl

/-- Fetch and execute with a legal code: the block at the cursor is decoded and its block step is taken. -/
theorem fetchExec_legal (s : State) (f : Format) (h : formatOf s.format = some f) :
    fetchExec s = .next (s.fetchBlock.finishBlock f (decPatch f (s.fetchBytes s.cur.toNat f.size))) := by
  have hl := s.fetchBytes_length s.cur.toNat f.size
  unfold fetchExec
  dsimp only
  rw [State.fetchBlock_format, State.lanes_fetchBlock, codeBytes_of_formatOf _ _ h, decode_legal _ f _ h, hl,
    if_neg (lt_irrefl _)]
  dsimp only
  rw [List.take_of_length_le (le_of_eq hl), exec_decodeBlock]

/-- Fetch and execute with a reserved code: error entry with UnsupportedFormat (R136). -/
theorem fetchExec_reserved (s : State) (h : formatOf s.format = none) :
    fetchExec s = .next (s.raiseError .unsupportedFormat) := by
  unfold fetchExec
  dsimp only
  rw [State.fetchBlock_reserved s h, decode]
  rcases lookupOp_of_none _ h with hr | hr | hr <;> rw [hr] <;> rfl

/-! ## The core's own step and the check step -/

/-- What the host did is settled by the format of the running command (R159, R160). -/
theorem State.settleStep_running (s t : State) (f : Format) (hb : s.busy = true) (h : formatOf s.format = some f) :
    s.settleStep t = t.settleBlock f (s.cur.toNat / f.size) := by
  rw [State.settleStep, State.running, if_pos hb, h]

/-- The core's own step while a command of format `f` runs (R122, R159, R160). -/
theorem coreStep_running (s : State) (f : Format) (hb : s.busy = true) (h : formatOf s.format = some f) :
    coreStep s = .next ((s.fetchBlock.finishBlock f (decPatch f (s.fetchBytes s.cur.toNat f.size))).settleBlock f
      (s.cur.toNat / f.size)) := by
  rw [coreStep, if_pos hb, fetchExec_legal s f h, onNext, State.settleStep_running s _ f hb h]

/-- The core's own step in a state that no command leads to: BUSY with a reserved code. -/
theorem coreStep_reserved (s : State) (hb : s.busy = true) (h : formatOf s.format = none) :
    coreStep s = .next (s.raiseError .unsupportedFormat) := by
  rw [coreStep, if_pos hb, fetchExec_reserved s h, onNext, State.settleStep, State.running, if_pos hb, h]

/-- The idle core does nothing (R125, R149). -/
theorem coreStep_idle (s : State) (hb : s.busy = false) : coreStep s = .next s := by
  rw [coreStep, if_neg (by simp [hb])]

/-- The check step with a reserved code (R136). -/
theorem checkStep_reserved (s : State) (h : formatOf s.format = none) :
    checkStep s = .next (s.clearResult.raiseError .unsupportedFormat) := by
  rw [checkStep, h]
  exact fetchExec_reserved s.clearResult h

/-- The check step with a legal code (R148). -/
theorem checkStep_legal (s : State) (f : Format) (h : formatOf s.format = some f) :
    checkStep s = .next (s.clearResult.checkArgs Config.strictLength f) := by
  rw [checkStep, h]

/-- What the check of the arguments can leave: an error entry or an accepted command (R137, R138, R148). -/
theorem State.checkArgs_cases (s : State) (strict : Bool) (f : Format) :
    ((s.width = 0 ∨ s.height = 0) ∧ s.checkArgs strict f = s.raiseError .invalidDimensions) ∨
    (s.width ≠ 0 ∧ s.height ≠ 0 ∧ (s.inLen.toNat < s.required f ∨ (s.inLen.toNat ≠ s.required f ∧ strict = true)) ∧
      s.checkArgs strict f = s.raiseError .inputTooShort) ∨
    (s.width ≠ 0 ∧ s.height ≠ 0 ∧ s.required f ≤ s.inLen.toNat ∧ (strict = true → s.inLen.toNat = s.required f) ∧
      s.checkArgs strict f = s.accept) := by
  unfold State.checkArgs
  split
  · next h => exact .inl ⟨h, rfl⟩
  · next h =>
    rw [not_or] at h
    split
    · next h2 => exact .inr (.inl ⟨h.1, h.2, h2, rfl⟩)
    · next h2 =>
      rw [not_or, not_and'] at h2
      exact .inr (.inr ⟨h.1, h.2, not_lt.1 h2.1, fun hs => not_not.1 (h2.2 hs), rfl⟩)

/-- What the advance of the cursor can leave: the next column, the next row, or the end of the command (R122, R125). -/
theorem State.advance_cases (s : State) (f : Format) :
    (s.bxi.toNat + 1 < s.blocksWide ∧ (s.advance f).bxi = s.bxi + 1 ∧ (s.advance f).byi = s.byi ∧
      (s.advance f).status = s.status) ∨
    (¬ s.bxi.toNat + 1 < s.blocksWide ∧ s.byi.toNat + 1 < s.blocksHigh ∧ (s.advance f).bxi = 0 ∧
      (s.advance f).byi = s.byi + 1 ∧ (s.advance f).status = s.status) ∨
    (¬ s.bxi.toNat + 1 < s.blocksWide ∧ ¬ s.byi.toNat + 1 < s.blocksHigh ∧ (s.advance f).bxi = s.bxi ∧
      (s.advance f).byi = s.byi ∧ (s.advance f).status = statusWord false true s.err) := by
  unfold State.advance
  split
  · next h => exact .inl ⟨h, rfl, rfl, rfl⟩
  · next h =>
    split
    · next h2 => exact .inr (.inl ⟨h, h2, rfl, rfl, rfl⟩)
    · next h2 => exact .inr (.inr ⟨h, h2, rfl, rfl, rfl⟩)

end Sys2Proof.Machine
end

