-- ==== Sys2Proof/Laws/Host.lean ====
section
/-! SUPPORT. The step by the host's next access, and what each access can change, said once. -/
namespace Sys2Proof.Machine

/-- With no host access pending the core takes its own step. -/
theorem step_noHost (s : State) (h : s.host = []) : step s = coreStep s := by
  rw [step, machineStep, h]

/-- With a host access pending that access is the step. -/
theorem step_host (s : State) (op : HostOp) (rest : List HostOp) (h : s.host = op :: rest) :
    step s = hostStep op (s.popHost rest) := by
  rw [step, machineStep, h]

@[simp] theorem State.popHost_running (s : State) (rest : List HostOp) : (s.popHost rest).running = s.running := by
  simp only [State.running, State.popHost_busy, State.popHost_format]

theorem State.running_idle (s : State) (h : s.busy = false) : s.running = none := by
  simp [State.running, h]

theorem State.running_some (s : State) (f : Format) : s.running = some f ↔ s.busy = true ∧ formatOf s.format = some f := by
  simp [State.running]

/-- A byte for which nothing is logged. -/
theorem logged_of_ne (log : List Host.Cell) (a : Nat) (h : ∀ c ∈ log, c.1 ≠ a) : logged log a = [] := by
  rw [logged, List.map_eq_nil_iff, List.filter_eq_nil_iff]
  intro c hc
  simpa using h c hc

theorem State.redoBlock_frame (s : State) (f : Format) (n : Nat) : ∃ m, s.redoBlock f n = { s with outMem := m } := by
  unfold State.redoBlock
  split
  · exact ⟨_, rfl⟩
  · exact ⟨s.outMem, rfl⟩

/-- A host write of IN changes IN, and at most OUT and the log of IN besides. -/
theorem State.hostWriteIn_frame (s : State) (a : Nat) (v : Byte) :
    ∃ m log, s.hostWriteIn a v = { s with inMem := s.inMem.write a v, outMem := m, inLog := log } := by
  unfold State.hostWriteIn
  split
  · exact ⟨s.outMem, s.inLog, rfl⟩
  · next f _ =>
    split
    · obtain ⟨m, e⟩ := State.redoBlock_frame
        { s with inMem := s.inMem.write a v, inLog := (a, s.inMem.read a) :: s.inLog } f (a / f.size)
      exact ⟨m, _, e⟩
    · exact ⟨s.outMem, s.inLog, rfl⟩

/-- A host write of OUT changes OUT and the log of OUT only. -/
theorem State.hostWriteOut_frame (s : State) (a : Nat) (v : Byte) :
    ∃ m log, s.hostWriteOut a v = { s with outMem := m, outLog := log } := by
  unfold State.hostWriteOut
  split
  · exact ⟨_, s.outLog, rfl⟩
  · split
    · exact ⟨_, _, rfl⟩
    · exact ⟨_, s.outLog, rfl⟩

/-- A byte after settling is what it was or one the host wrote there. -/
theorem State.settleHostOut_read (s : State) (o : Nat) :
    s.settleHostOut.outMem.read o ∈ s.outMem.read o :: logged s.outLog o := by
  have h : ∀ (l l' : List Host.Cell) (m : Memory), m.read o ∈ s.outMem.read o :: logged l' o →
      (l.foldl (fun m c => Memory.write m c.1 (pick .store s.freeCtr c.1 (m.read c.1) (logged l' c.1))) m).read o ∈
        s.outMem.read o :: logged l' o := by
    intro l l'
    induction l with
    | nil => exact fun m h => h
    | cons c l ih =>
      intro m hm
      refine ih _ ?_
      rw [Memory.read_write]
      split
      · next e =>
        subst e
        rcases List.mem_cons.1 (pick_mem .store s.freeCtr c.1 (m.read c.1) (logged l' c.1)) with h | h
        · rw [h]; exact hm
        · exact List.mem_cons_of_mem _ h
      · exact hm
  exact h _ _ _ (by simp)

/-- A byte of OUT after a command of format `f` is abandoned over its first `n` bytes. -/
theorem State.abandonOut_read (s : State) (f : Format) (n o : Nat) :
    (s.abandonOut f n).read o =
      if o < n then pick .abandon s.freeCtr o (s.outMem.read o) (s.outAlternatives f o) else s.outMem.read o := by
  induction n with
  | zero => simp [State.abandonOut]
  | succ n ih =>
    rw [State.abandonOut, Memory.read_write, ih]
    by_cases h : o = n
    · subst h; simp
    · by_cases h2 : o < n
      · rw [if_neg h, if_pos h2, if_pos (by omega)]
      · rw [if_neg h, if_neg h2, if_neg (by omega)]

theorem State.abandonOut_wf (s : State) (f : Format) (n : Nat) (h : s.outMem.wf) : (s.abandonOut f n).wf := by
  induction n with
  | zero => exact h
  | succ n ih => exact Memory.write_wf _ _ _ ih

theorem State.redoBlock_wf (s : State) (f : Format) (n : Nat) (h : s.outMem.wf) : (s.redoBlock f n).outMem.wf := by
  unfold State.redoBlock
  split
  · exact State.settleBlock_wf _ _ _ h
  · exact h

theorem State.hostWriteIn_wf (s : State) (a : Nat) (v : Byte) (h : s.outMem.wf) : (s.hostWriteIn a v).outMem.wf := by
  unfold State.hostWriteIn
  split
  · exact h
  · split
    · exact State.redoBlock_wf _ _ _ h
    · exact h

theorem State.hostWriteOut_wf (s : State) (a : Nat) (v : Byte) (h : s.outMem.wf) : (s.hostWriteOut a v).outMem.wf := by
  unfold State.hostWriteOut
  split
  · exact Memory.write_wf _ _ _ h
  · split
    · exact State.settleHostOut_wf _ h
    · exact Memory.write_wf _ _ _ h

/-- What the check step can leave: an error entry, or an accepted command of a legal format with its sizes checked
(R148). -/
theorem checkStep_cases (s t : State) (h : checkStep s = .next t) :
    (∃ e, t = s.clearResult.raiseError e) ∨
    ∃ f, formatOf s.format = some f ∧ s.width ≠ 0 ∧ s.height ≠ 0 ∧ s.required f ≤ s.inLen.toNat ∧
      t = s.clearResult.accept := by
  rcases hf : formatOf s.format with _ | f
  · rw [checkStep_reserved s hf] at h
    exact .inl ⟨_, (Host.Outcome.next.inj h).symm⟩
  · rw [checkStep_legal s f hf] at h
    obtain rfl := Host.Outcome.next.inj h
    rcases State.checkArgs_cases s.clearResult Config.strictLength f with h | h | h
    · exact .inl ⟨_, h.2⟩
    · exact .inl ⟨_, h.2.2.2⟩
    · exact .inr ⟨f, rfl, h.1, h.2.1, h.2.2.1, h.2.2.2.2⟩

/-- What the core's own step can leave (R122, R125). -/
theorem coreStep_cases (s t : State) (h : coreStep s = .next t) :
    (s.busy = false ∧ t = s) ∨
    (s.busy = true ∧ formatOf s.format = none ∧ t = s.raiseError .unsupportedFormat) ∨
    ∃ f, s.busy = true ∧ formatOf s.format = some f ∧
      t = (s.fetchBlock.finishBlock f (decPatch f (s.fetchBytes s.cur.toNat f.size))).settleBlock f
        (s.cur.toNat / f.size) := by
  rcases hb : s.busy with _ | _
  · rw [coreStep_idle s hb] at h
    exact .inl ⟨rfl, (Host.Outcome.next.inj h).symm⟩
  · rcases hf : formatOf s.format with _ | f
    · rw [coreStep_reserved s hb hf] at h
      exact .inr (.inl ⟨rfl, rfl, (Host.Outcome.next.inj h).symm⟩)
    · rw [coreStep_running s f hb hf] at h
      exact .inr (.inr ⟨f, rfl, rfl, (Host.Outcome.next.inj h).symm⟩)

end Sys2Proof.Machine
end

