-- ==== Sys2Proof/Laws/Operands.lean ====
section
/-! SUPPORT. The shared interpolation and the midpoint as arithmetic: no result wraps (R80). -/
namespace Sys2Proof.Machine

/-- The numerator of `INTERP` lies between `min·den` and `max·den + den div 2` (R81). -/
theorem interp_weights (x y num den : Nat) (h : num ≤ den) :
    min x y * den ≤ x * (den - num) + y * num ∧ x * (den - num) + y * num ≤ max x y * den := by
  have hd : (den - num) + num = den := Nat.sub_add_cancel h
  constructor
  · calc min x y * den = min x y * (den - num) + min x y * num := by rw [← Nat.mul_add, hd]
      _ ≤ _ := Nat.add_le_add (Nat.mul_le_mul_right _ (Nat.min_le_left _ _)) (Nat.mul_le_mul_right _ (Nat.min_le_right _ _))
  · calc x * (den - num) + y * num ≤ max x y * (den - num) + max x y * num :=
        Nat.add_le_add (Nat.mul_le_mul_right _ (Nat.le_max_left _ _)) (Nat.mul_le_mul_right _ (Nat.le_max_right _ _))
      _ = max x y * den := by rw [← Nat.mul_add, hd]

/-- `INTERP` does not wrap: its value is the floor division of R78. -/
theorem interp_toNat (c0 c1 : Byte) (num den : Nat) (h : num ≤ den) (hd : 0 < den) :
    (interp c0 c1 num den).toNat = (c0.toNat * (den - num) + c1.toNat * num + den / 2) / den := by
  have hw := (interp_weights c0.toNat c1.toNat num den h).2
  have hm : max c0.toNat c1.toNat ≤ 255 := Nat.max_le.2 ⟨Nat.le_of_lt_succ c0.isLt, Nat.le_of_lt_succ c1.isLt⟩
  rw [interp, BitVec.toNat_ofNat, Nat.mod_eq_of_lt]
  rw [Nat.div_lt_iff_lt_mul hd]
  have h255 : max c0.toNat c1.toNat * den ≤ 255 * den := Nat.mul_le_mul_right _ hm
  omega

/-- The midpoint does not wrap (R88). -/
theorem midpoint_toNat (bias : Nat) (x y : Byte) (h : bias ≤ 1) :
    (midpoint bias x y).toNat = (x.toNat + y.toNat + bias) / 2 := by
  have hx := x.isLt
  have hy := y.isLt
  rw [midpoint, BitVec.toNat_ofNat]
  omega

end Sys2Proof.Machine
end

