-- ==== Sys2Proof/Laws/Patch.lean ====
section
/-! SUPPORT. The palettes, the texels they give and the texel registers after a block step. -/
namespace Sys2Proof.Machine

theorem cpal_length (bias : Nat) (allowPt : Bool) (c : C64) : (cpal bias allowPt c).length = 4 := by
  unfold cpal; split <;> rfl

theorem apal_length (a : A64) : (apal a).length = 8 := by
  unfold apal; split <;> rfl

/-- A 2-bit index always selects a palette entry (R59, R90). -/
theorem cpal_get_cblk (bias : Nat) (allowPt : Bool) (c : C64) (t : Nat) :
    (cpal bias allowPt c)[(c.cidx.getD t 0).toNat]? = some (cblk bias allowPt c t) := by
  have h : (c.cidx.getD t 0).toNat < (cpal bias allowPt c).length := by
    rw [cpal_length]; exact (c.cidx.getD t 0).isLt
  rw [cblk, List.getD_eq_getElem _ _ h, List.getElem?_eq_getElem h]

/-- A 3-bit index always selects a palette byte (R59, R102). -/
theorem apal_get_ablk (a : A64) (t : Nat) : (apal a)[(a.aidx.getD t 0).toNat]? = some (ablk a t) := by
  have h : (a.aidx.getD t 0).toNat < (apal a).length := by
    rw [apal_length]; exact (a.aidx.getD t 0).isLt
  rw [ablk, List.getD_eq_getElem _ _ h, List.getElem?_eq_getElem h]

/-- Without punch-through the palette is the opaque one, whatever the bias (R86). -/
theorem cpal_not_allowed (bias : Nat) (c : C64) : cpal bias false c = cpalOpaque c := by
  simp [cpal, punchThrough]

theorem texels_getD (texel : Nat → List Byte) (t : Nat) (h : t < 16) : (texels texel).getD t [] = texel t := by
  simp [texels, h]

/-- Every texel of a patch has `chan(f)` bytes (R105). -/
theorem decPatch_getD_length (f : Format) (bs : List Byte) (t : Nat) (h : t < 16) :
    ((decPatch f bs).getD t []).length = f.chan := by
  cases f <;> simp only [decPatch, decodeBlock, patchOf, patchBc1, patchBc2, patchBc3, patchBc4, patchBc5,
    texels_getD _ _ h] <;> rfl

/-- An instruction with a legal code takes the block step of its format (R57, R111). -/
theorem exec_of_formatOf (i : Instr) (f : Format) (s : State) (h : formatOf i.code = some f) :
    exec i s = .next (s.finishBlock f (patchOf Config.midpointBias.val i)) := by
  have hc := code_of_formatOf _ _ h
  cases i <;> cases f <;> first | rfl | (simp [Instr.code, Format.code] at hc)

theorem State.finishBlock_texelReg (s : State) (f : Format) (ts : List (List Byte)) (t : Nat) :
    (s.finishBlock f ts).texelReg t = (s.loadPatch ts).texelReg t := by
  simp only [State.texelReg, State.finishBlock_patch]

/-- The channel bytes of a texel register after a block step (R12). -/
theorem State.finishBlock_lanes (s : State) (f : Format) (ts : List (List Byte)) (t k : Nat) (ht : t < 16)
    (hk : (ts.getD t []).length = k) (h4 : k ≤ 4) : lanes k ((s.finishBlock f ts).texelReg t) = ts.getD t [] := by
  subst hk
  rw [State.finishBlock_texelReg, State.lanes_loadPatch s ts t ht h4]

/-- The bytes of a texel register above its channels are kept (R12). -/
theorem State.finishBlock_high (s : State) (f : Format) (ts : List (List Byte)) (t k : Nat) (ht : t < 16)
    (hk : (ts.getD t []).length = k) (h4 : k ≤ 4) :
    ((s.finishBlock f ts).texelReg t).toNat / 256 ^ k = (s.texelReg t).toNat / 256 ^ k := by
  subst hk
  rw [State.finishBlock_texelReg, State.texelReg_loadPatch s ts t ht, setLanes_high _ _ (by omega)]

end Sys2Proof.Machine
end

