-- ==== Sys2Proof/Laws/Output.lean ====
section
/-! SUPPORT. What the stores of one block leave in OUT, pixel by pixel, and the mixtures of old and new bytes. -/
namespace Sys2Proof.Machine

/-- Two pixel channels of the image at one offset are the same (R127). -/
theorem State.pixelByte_inj (s : State) (f : Format) (x y k x' y' k' : Nat) (hx : x < s.width.toNat)
    (hx' : x' < s.width.toNat) (hk : k < f.chan) (hk' : k' < f.chan)
    (h : s.pixelByte f x y k = s.pixelByte f x' y' k') : x = x' ∧ y = y' ∧ k = k' := by
  simp only [State.pixelByte] at h
  have hp : y * s.width.toNat + x = y' * s.width.toNat + x' := by
    have h1 : ((y * s.width.toNat + x) * f.chan + k) / f.chan = ((y' * s.width.toNat + x') * f.chan + k') / f.chan := by
      rw [h]
    rwa [mul_comm _ f.chan, Nat.mul_add_div f.chan_pos, Nat.div_eq_of_lt hk, mul_comm _ f.chan,
      Nat.mul_add_div f.chan_pos, Nat.div_eq_of_lt hk', Nat.add_zero, Nat.add_zero] at h1
  obtain ⟨ex, ey⟩ := pixel_unique _ _ _ _ _ hx hx' hp
  rw [hp] at h
  exact ⟨ex, ey, by omega⟩

/-- The channels of the image lie below `out_size` (R37). -/
theorem State.pixelByte_lt (s : State) (f : Format) (x y k : Nat) (hx : x < s.width.toNat) (hy : y < s.height.toNat)
    (hk : k < f.chan) : s.pixelByte f x y k < s.outSize f := by
  simp only [State.pixelByte, State.outSize]
  calc (y * s.width.toNat + x) * f.chan + k < (y * s.width.toNat + x + 1) * f.chan := by rw [Nat.succ_mul]; omega
    _ ≤ s.width.toNat * s.height.toNat * f.chan := by
      apply Nat.mul_le_mul_right
      calc y * s.width.toNat + x + 1 ≤ (y + 1) * s.width.toNat := by rw [Nat.succ_mul]; omega
        _ ≤ s.height.toNat * s.width.toNat := Nat.mul_le_mul_right _ hy
        _ = s.width.toNat * s.height.toNat := mul_comm _ _

/-- What a byte of OUT may hold, it may still hold in a state with the same old bytes, more mixtures and more host bytes. -/
theorem State.OldNewOrHost_mono (s t : State) (f : Format) (x y k : Nat) (b : Byte) (ho : t.outOld = s.outOld)
    (hw : t.width = s.width) (hm : ∀ bs, s.Mixture f (s.blockOf x y) bs → t.Mixture f (s.blockOf x y) bs)
    (hl : ∀ o, ∀ c ∈ logged s.outLog o, c ∈ logged t.outLog o) (h : s.OldNewOrHost f x y k b) :
    t.OldNewOrHost f x y k b := by
  have hp : t.pixelByte f x y k = s.pixelByte f x y k := by simp [State.pixelByte, hw]
  have hb : t.blockOf x y = s.blockOf x y := by simp [State.blockOf, State.blocksWide, hw]
  rw [State.OldNewOrHost, hp, hb, ho]
  exact h.imp_right (Or.imp (fun ⟨bs, h1, h2⟩ => ⟨bs, hm bs h1, h2⟩) (hl _ b))

/-- A byte the host wrote may stand for what OUT may hold. -/
theorem State.OldNewOrHost_logged (s : State) (f : Format) (x y k : Nat) (b c : Byte) (h : s.OldNewOrHost f x y k c)
    (hb : b ∈ c :: logged s.outLog (s.pixelByte f x y k)) : s.OldNewOrHost f x y k b := by
  rcases List.mem_cons.1 hb with rfl | hb
  · exact h
  · exact .inr (.inr hb)

/-- The texel addresses of a block are those of its pixels (R124). -/
theorem State.texelAddr_pixel (s : State) (f : Format) (x y : Nat) (hx : x < s.width.toNat) (hy : y < s.height.toNat)
    (hbx : x / 4 = s.bxi.toNat) (hby : y / 4 = s.byi.toNat) :
    s.texelAddr f (4 * (y % 4) + x % 4) = some ((y * s.width.toNat + x) * f.chan) := by
  have ex : 4 * s.bxi.toNat + (4 * (y % 4) + x % 4) % 4 = x := by omega
  have ey : 4 * s.byi.toNat + (4 * (y % 4) + x % 4) / 4 = y := by omega
  simp only [State.texelAddr, ex, ey]
  rw [if_pos ⟨hx, hy⟩]

/-- A stored pixel holds the channel bytes of its texel (R124). -/
theorem State.storePatch_pixel (s : State) (f : Format) (ts : List (List Byte))
    (hl : ∀ t, t < 16 → (ts.getD t []).length = f.chan) (x y k : Nat) (hx : x < s.width.toNat) (hy : y < s.height.toNat)
    (hk : k < f.chan) (hbx : x / 4 = s.bxi.toNat) (hby : y / 4 = s.byi.toNat) :
    ((s.loadPatch ts).storePatch f).outMem.read (s.pixelByte f x y k) = (ts.getD (4 * (y % 4) + x % 4) []).getD k 0 := by
  have ht : 4 * (y % 4) + x % 4 < 16 := by omega
  have ha : (s.loadPatch ts).texelAddr f (4 * (y % 4) + x % 4) = some ((y * s.width.toNat + x) * f.chan) := by
    rw [State.texelAddr_loadPatch]; exact s.texelAddr_pixel f x y hx hy hbx hby
  have hlane := s.lanes_loadPatch ts _ ht (by rw [hl _ ht]; exact f.chan_le)
  rw [hl _ ht] at hlane
  rw [State.pixelByte, State.storePatch_stored _ f _ _ k ht ha hk, hlane]

/-- A byte that belongs to no pixel of the block keeps its value (R124). -/
theorem State.storePatch_elsewhere (s : State) (f : Format) (ts : List (List Byte)) (o : Nat)
    (h : ∀ x y k, x < s.width.toNat → y < s.height.toNat → k < f.chan → x / 4 = s.bxi.toNat → y / 4 = s.byi.toNat →
      o ≠ s.pixelByte f x y k) :
    ((s.loadPatch ts).storePatch f).outMem.read o = s.outMem.read o := by
  rw [State.storePatch_kept]
  · rfl
  · intro t ht a ha
    rw [State.texelAddr_loadPatch] at ha
    obtain ⟨hx, hy, rfl⟩ := s.texelAddr_some f t a ha
    by_contra hcon
    refine h _ _ (o - ((4 * s.byi.toNat + t / 4) * s.width.toNat + (4 * s.bxi.toNat + t % 4)) * f.chan) hx hy
      (by omega) (by omega) (by omega) ?_
    rw [State.pixelByte]; omega

/-- What a texel of a rewritten block is decoded from is a mixture of the block's old and new bytes (R45, U3). -/
theorem State.mixture_seenByte (s : State) (use : FreeUse) (f : Format) (n : Nat) :
    s.Mixture f n ((List.range f.size).map fun i => s.seenByte use (n * f.size + i)) := by
  refine ⟨by simp, fun i hi => ?_⟩
  have := pick_mem use s.freeCtr (n * f.size + i) (s.inMem.read (n * f.size + i)) (logged s.inLog (n * f.size + i))
  simpa [hi, State.seenByte] using this

/-- What the block fetch reads at the start of block `n` is a mixture of the block's old and new bytes (R123). -/
theorem State.mixture_fetchBytes (s : State) (f : Format) (n : Nat) :
    s.Mixture f n (s.fetchBytes (n * f.size) f.size) := s.mixture_seenByte .fetch f n

/-- Settling leaves OUT as it was, or stores the block's pixels again (R159). -/
theorem State.mixedOut_cases (s : State) (f : Format) (n : Nat) :
    s.mixedOut f n = s.outMem ∨
    s.mixedOut f n = (State.storePatch (State.loadPatch
      { s with bxi := BitVec.ofNat 30 (n % s.blocksWide), byi := BitVec.ofNat 30 (n / s.blocksWide) }
      (texels (s.mixedTexel f n))) f).outMem := by
  unfold State.mixedOut
  split
  · exact .inr rfl
  · exact .inl rfl

theorem State.mixedTexel_length (s : State) (f : Format) (n t : Nat) (h : t < 16) :
    ((texels (s.mixedTexel f n)).getD t []).length = f.chan := by
  rw [texels_getD _ _ h]; exact decPatch_getD_length f _ _ h

/-- The block that is stepped or rewritten lies inside the block grid (R120). -/
theorem State.block_in_grid (s : State) (n : Nat) (h : n < s.nblocks) :
    (BitVec.ofNat 30 (n % s.blocksWide)).toNat = n % s.blocksWide ∧
    (BitVec.ofNat 30 (n / s.blocksWide)).toNat = n / s.blocksWide := by
  have hw : s.blocksWide ≤ 2 ^ 30 := by have := s.width.isLt; simp only [State.blocksWide, ceil4]; omega
  have hh : s.blocksHigh ≤ 2 ^ 30 := by have := s.height.isLt; simp only [State.blocksHigh, ceil4]; omega
  have hpos : 0 < s.blocksWide := by
    rcases Nat.eq_zero_or_pos s.blocksWide with e | e
    · simp [State.nblocks, e] at h
    · exact e
  have h1 := Nat.mod_lt n hpos
  have h2 : n / s.blocksWide < s.blocksHigh := Nat.div_lt_of_lt_mul h
  rw [BitVec.toNat_ofNat, BitVec.toNat_ofNat]
  exact ⟨Nat.mod_eq_of_lt (by omega), Nat.mod_eq_of_lt (by omega)⟩

/-- A pixel is in block `n` exactly if its coordinates name that block (R127). -/
theorem State.blockOf_eq (s : State) (x y n : Nat) (hx : x < s.width.toNat) :
    s.blockOf x y = n ↔ x / 4 = n % s.blocksWide ∧ y / 4 = n / s.blocksWide := by
  have hlt : x / 4 < s.blocksWide := by simp only [State.blocksWide, ceil4]; omega
  have hpos : 0 < s.blocksWide := by omega
  constructor
  · rintro rfl
    rw [State.blockOf, mul_comm, Nat.mul_add_mod, Nat.mod_eq_of_lt hlt, Nat.mul_add_div hpos, Nat.div_eq_of_lt hlt]
    exact ⟨rfl, rfl⟩
  · rintro ⟨e1, e2⟩
    rw [State.blockOf, e1, e2, mul_comm]
    exact Nat.div_add_mod n s.blocksWide

/-- A pixel of the image belongs to one of its blocks (R127). -/
theorem State.blockOf_lt (s : State) (x y : Nat) (hx : x < s.width.toNat) (hy : y < s.height.toNat) :
    s.blockOf x y < s.nblocks := by
  have hw : x / 4 < s.blocksWide := by simp only [State.blocksWide, ceil4]; omega
  have hh : y / 4 < s.blocksHigh := by simp only [State.blocksHigh, ceil4]; omega
  calc s.blockOf x y < y / 4 * s.blocksWide + s.blocksWide := Nat.add_lt_add_left hw _
    _ = (y / 4 + 1) * s.blocksWide := by ring
    _ ≤ s.blocksHigh * s.blocksWide := Nat.mul_le_mul_right _ hh
    _ = s.nblocks := mul_comm _ _

/-- What settling block `n` leaves in a pixel of the block (R159, R160): the whole pixel holds what it held, or the whole pixel
is the decode of one mixture; a byte the host wrote during the command may stand instead. -/
theorem State.settleBlock_pixel (s : State) (f : Format) (n : Nat) (hn : n < s.nblocks) (x y : Nat)
    (hx : x < s.width.toNat) (hy : y < s.height.toNat) (hb : s.blockOf x y = n) :
    (∀ k, k < f.chan → (s.settleBlock f n).outMem.read (s.pixelByte f x y k) ∈
      s.outMem.read (s.pixelByte f x y k) :: logged s.outLog (s.pixelByte f x y k)) ∨
    ∃ bs, s.Mixture f n bs ∧ ∀ k, k < f.chan → (s.settleBlock f n).outMem.read (s.pixelByte f x y k) ∈
      decodedByte f bs x y k :: logged s.outLog (s.pixelByte f x y k) := by
  have key : ∀ o, (s.settleBlock f n).outMem.read o ∈ (s.mixedOut f n).read o :: logged s.outLog o :=
    fun o => State.settleHostOut_read { s with outMem := s.mixedOut f n } o
  rcases s.mixedOut_cases f n with e | e
  · rw [e] at key
    exact .inl fun k _ => key _
  · obtain ⟨hbx, hby⟩ := s.block_in_grid n hn
    obtain ⟨h1, h2⟩ := (s.blockOf_eq x y n hx).1 hb
    refine .inr ⟨_, s.mixture_seenByte (.texel (4 * (y % 4) + x % 4)) f n, fun k hk => ?_⟩
    have h := key (s.pixelByte f x y k)
    rw [e] at h
    have hp := State.storePatch_pixel
      { s with bxi := BitVec.ofNat 30 (n % s.blocksWide), byi := BitVec.ofNat 30 (n / s.blocksWide) } f _
      (s.mixedTexel_length f n) x y k hx hy hk (by rw [hbx]; exact h1) (by rw [hby]; exact h2)
    rw [texels_getD _ _ (by omega)] at hp
    rcases List.mem_cons.1 h with h | h
    · exact List.mem_cons.2 (.inl (h.trans hp))
    · exact List.mem_cons_of_mem _ h

/-- What settling block `n` leaves outside the block's pixels: what was there, or a byte the host wrote during the command
(R159, R160). -/
theorem State.settleBlock_elsewhere (s : State) (f : Format) (n : Nat) (hn : n < s.nblocks) (o : Nat)
    (h : ∀ x y k, x < s.width.toNat → y < s.height.toNat → k < f.chan → s.blockOf x y = n → o ≠ s.pixelByte f x y k) :
    (s.settleBlock f n).outMem.read o ∈ s.outMem.read o :: logged s.outLog o := by
  have key : (s.settleBlock f n).outMem.read o ∈ (s.mixedOut f n).read o :: logged s.outLog o :=
    State.settleHostOut_read { s with outMem := s.mixedOut f n } o
  rcases s.mixedOut_cases f n with e | e
  · rwa [e] at key
  · obtain ⟨hbx, hby⟩ := s.block_in_grid n hn
    rw [e, State.storePatch_elsewhere] at key
    · exact key
    · intro x y k hx hy hk h1 h2
      exact h x y k hx hy hk ((s.blockOf_eq x y n hx).2 ⟨by rw [← hbx]; exact h1, by rw [← hby]; exact h2⟩)

end Sys2Proof.Machine
end

