-- ==== Sys2Proof/Laws/PerInstr.lean ====
section
/-! SUPPORT. The family `BlockLength`, stated per instruction: an instruction's block has the bytes its code asks for. -/
namespace Sys2Proof.Laws.BlockLength

/-- The encoded block is as long as the code says, so a stream is cut at the right byte (R50, R60). -/
def Statement (i : Instr) : Prop := i.block.length = codeBytes i.code

/-- The bytes each code asks for (R50). -/
theorem codeBytes_values : codeBytes 0 = 0 ∧ codeBytes 1 = 8 ∧ codeBytes 2 = 16 ∧ codeBytes 3 = 16 ∧ codeBytes 4 = 8 ∧
    codeBytes 5 = 16 ∧ codeBytes 6 = 0 ∧ codeBytes 7 = 0 := by decide

theorem rsvd0 : Statement .rsvd0 := codeBytes_values.1.symm

theorem decBc1 (col : C64) : Statement (.decBc1 col) := by
  rw [Statement, Instr.block, Instr.code, encodeC64_length, codeBytes_values.2.1]

theorem decBc2 (alpha : X64) (col : C64) : Statement (.decBc2 alpha col) := by
  rw [Statement, Instr.block, List.length_append, encodeX64_length, encodeC64_length]; exact codeBytes_values.2.2.1.symm

theorem decBc3 (alpha : A64) (col : C64) : Statement (.decBc3 alpha col) := by
  rw [Statement, Instr.block, List.length_append, encodeA64_length, encodeC64_length]; exact codeBytes_values.2.2.2.1.symm

theorem decBc4 (chan : A64) : Statement (.decBc4 chan) := by
  rw [Statement, Instr.block, Instr.code, encodeA64_length, codeBytes_values.2.2.2.2.1]

theorem decBc5 (chan0 chan1 : A64) : Statement (.decBc5 chan0 chan1) := by
  rw [Statement, Instr.block, List.length_append, encodeA64_length, encodeA64_length]; exact codeBytes_values.2.2.2.2.2.1.symm

theorem rsvd6 : Statement .rsvd6 := codeBytes_values.2.2.2.2.2.2.1.symm

theorem rsvd7 : Statement .rsvd7 := codeBytes_values.2.2.2.2.2.2.2.symm

end Sys2Proof.Laws.BlockLength
end

