-- ==== Sys2Proof/Laws/Run.lean ====
section
/-! SUPPORT. Runs of the machine, one step more at their start or at their end. -/
namespace Sys2Proof.Machine

theorem run_zero (s : State) : Host.Core.run Sys2Proof.core 0 s = .next s := rfl

/-- A run is its first step, and the rest of the run where that answers a next state. -/
theorem run_first (n : Nat) (s u : State) (h : step s = .next u) :
    Host.Core.run Sys2Proof.core (n + 1) s = Host.Core.run Sys2Proof.core n u := by
  have h : Sys2Proof.core.step s = .next u := h
  exact (Host.Core.run.eq_2 Sys2Proof.core s n).trans (by rw [h])

/-- A run of `n + 1` steps is a run of `n` steps and one step more. -/
theorem run_succ (n : Nat) (s t : State) (h : Host.Core.run Sys2Proof.core n s = .next t) :
    Host.Core.run Sys2Proof.core (n + 1) s = step t := by
  induction n generalizing s with
  | zero =>
    obtain rfl : s = t := Host.Outcome.next.inj h
    cases hs : step s with
    | next u => exact run_first 0 s u hs
    | fault r =>
      have hs : Sys2Proof.core.step s = .fault r := hs
      exact (Host.Core.run.eq_2 Sys2Proof.core s 0).trans (by rw [hs]; rfl)
    | refused r =>
      have hs : Sys2Proof.core.step s = .refused r := hs
      exact (Host.Core.run.eq_2 Sys2Proof.core s 0).trans (by rw [hs]; rfl)
  | succ n ih =>
    cases hs : step s with
    | next u => rw [run_first n s u hs] at h; rw [run_first (n + 1) s u hs]; exact ih u h
    | fault r =>
      have hs : Sys2Proof.core.step s = .fault r := hs
      have h := (Host.Core.run.eq_2 Sys2Proof.core s n).symm.trans h
      rw [hs] at h; cases h
    | refused r =>
      have hs : Sys2Proof.core.step s = .refused r := hs
      have h := (Host.Core.run.eq_2 Sys2Proof.core s n).symm.trans h
      rw [hs] at h; cases h

end Sys2Proof.Machine
end

