-- ==== Sys2Proof/Tests/Slice0.lean ====
section
/-! SUPPORT. Tests on the spec's own vectors (95_test_vectors.md), the smoke tests of WellFormed, and for each statement with
hypotheses a witness that meets them. Expected values are the spec's. -/
namespace Sys2Proof.Tests
open Sys2Proof.Machine

/-! ## Helpers -/

/-- An accepted command before its first block step. -/
def accepted (f : Format) (w h : BitVec 32) (len : BitVec 64) (input : List Byte) : State :=
  { State.reset with format := f.code, width := w, height := h, inLen := len, status := 0b0001,
                     inMem := Memory.writeBytes [] 0 input }

/-- An idle core with one host access pending. -/
def idle (code : BitVec 3) (w h : BitVec 32) (len : BitVec 64) (op : HostOp) : State :=
  { State.reset with format := code, width := w, height := h, inLen := len, host := [op] }

/-- A view of the next state, 0 where there is none. -/
def after (o : Host.Outcome State Fault Refusal) (view : State → Nat) : Nat :=
  match o with
  | .next t => view t
  | _ => 0

/-- `n` bytes of OUT from an offset on, as one list of numbers. -/
def outBytes (o : Host.Outcome State Fault Refusal) (a n : Nat) : List Nat :=
  (List.range n).map fun i => after o fun t => (t.outMem.read (a + i)).toNat

/-- The C64 sub-block `PACKC(0xF800, 0x001F, [0,1,2,3] × 4)`. -/
def redBlue : C64 := ⟨0xF800, 0x001F, [0, 1, 2, 3, 0, 1, 2, 3, 0, 1, 2, 3, 0, 1, 2, 3]⟩

/-- The same with the endpoints exchanged: `c0 ≤ c1`. -/
def blueRed : C64 := ⟨0x001F, 0xF800, [0, 1, 2, 3, 0, 1, 2, 3, 0, 1, 2, 3, 0, 1, 2, 3]⟩

/-- The A64 sub-block `PACKA(200, 100, [0 … 7, 7 … 0])`. -/
def falling : A64 := ⟨200, 100, [0, 1, 2, 3, 4, 5, 6, 7, 7, 6, 5, 4, 3, 2, 1, 0]⟩

/-- The A64 sub-block `PACKA(100, 200, [0 … 7, 7 … 0])`. -/
def rising : A64 := ⟨100, 200, [0, 1, 2, 3, 4, 5, 6, 7, 7, 6, 5, 4, 3, 2, 1, 0]⟩

/-- The X64 sub-block `PACKX([0 … 15])`. -/
def ramp : X64 := ⟨[0, 1, 2, 3, 4, 5, 6, 7, 8, 9, 10, 11, 12, 13, 14, 15]⟩

/-! ## WellFormed: an ill-formed term for each check -/

theorem test_wf_c64_short : (Instr.decBc1 ⟨0, 0, []⟩).wf = false := by decide
theorem test_wf_x64_long : (Instr.decBc2 ⟨List.replicate 17 0⟩ redBlue).wf = false := by decide
theorem test_wf_bc2_colour : (Instr.decBc2 ramp ⟨0, 0, [0]⟩).wf = false := by decide
theorem test_wf_bc3_alpha : (Instr.decBc3 ⟨0, 0, [0]⟩ redBlue).wf = false := by decide
theorem test_wf_bc3_colour : (Instr.decBc3 falling ⟨0, 0, [0]⟩).wf = false := by decide
theorem test_wf_bc4 : (Instr.decBc4 ⟨0, 0, List.replicate 15 0⟩).wf = false := by decide
theorem test_wf_bc5_first : (Instr.decBc5 ⟨0, 0, []⟩ falling).wf = false := by decide
theorem test_wf_bc5_second : (Instr.decBc5 falling ⟨0, 0, []⟩).wf = false := by decide

/-! ## FIELD (section 2.1) -/

/-- The counting block of section 2.1. -/
def counting : List Byte := [0x01, 0x23, 0x45, 0x67, 0x89, 0xAB, 0xCD, 0xEF]

theorem test_field_two_bits :
    (texelFields counting 32 2).map BitVec.toNat = [1, 2, 0, 2, 3, 2, 2, 2, 1, 3, 0, 3, 3, 3, 2, 3] := by decide
theorem test_field_three_bits :
    (texelFields counting 16 3).map BitVec.toNat = [5, 0, 5, 3, 6, 2, 2, 4, 3, 5, 6, 6, 4, 7, 3, 7] := by decide
theorem test_field_four_bits :
    (texelFields counting 0 4).map BitVec.toNat = [1, 0, 3, 2, 5, 4, 7, 6, 9, 8, 11, 10, 13, 12, 15, 14] := by decide
theorem test_field_endpoints : field counting 0 16 = 0x2301 ∧ field counting 16 16 = 0x6745 := by decide

/-! ## Operands and palettes (sections 2.2 to 2.6) -/

theorem test_exp565 : exp565 0xABCD = ⟨173, 121, 107⟩ ∧ exp565 0x6745 = ⟨99, 235, 41⟩ := by decide
theorem test_interp_third : interp 16 0 1 3 = 11 ∧ interp 10 11 2 3 = 11 ∧ interp 255 0 1 3 = 170 := by decide
theorem test_interp_seventh : interp 255 254 3 7 = 255 ∧ interp 255 254 4 7 = 254 ∧ interp 0 255 4 5 = 204 := by decide
theorem test_cpal_opaque : cpal 0 true ⟨0x8410, 0x7BEF, []⟩ =
    [⟨132, 130, 132, 255⟩, ⟨123, 125, 123, 255⟩, ⟨129, 128, 129, 255⟩, ⟨126, 127, 126, 255⟩] := by decide
theorem test_cpal_punch_bias0 : cpal 0 true ⟨0x2301, 0x6745, []⟩ =
    [⟨33, 97, 8, 255⟩, ⟨99, 235, 41, 255⟩, ⟨66, 166, 24, 255⟩, ⟨0, 0, 0, 0⟩] := by decide
theorem test_cpal_punch_bias1 : (cpal 1 true ⟨0x2301, 0x6745, []⟩)[2]? = some ⟨66, 166, 25, 255⟩ := by decide
theorem test_cpal_not_allowed : cpal 0 false ⟨0x1234, 0xABCD, []⟩ =
    [⟨16, 69, 165, 255⟩, ⟨173, 121, 107, 255⟩, ⟨68, 86, 146, 255⟩, ⟨121, 104, 126, 255⟩] := by decide
theorem test_apal_seven : (apal ⟨235, 16, []⟩).map BitVec.toNat = [235, 16, 204, 172, 141, 110, 79, 47] := by decide
theorem test_apal_five : (apal ⟨1, 35, []⟩).map BitVec.toNat = [1, 35, 8, 15, 21, 28, 0, 255] := by decide

/-! ## Decoding words written out from the spec's encodings (R52 to R55, R62, section 2.7) -/

theorem test_decode_rsvd0 : decode 0 [0x12] = .ok (.rsvd0, [0x12]) := by decide
theorem test_decode_bc1 :
    decode 1 [0x00, 0xF8, 0x1F, 0x00, 0xE4, 0xE4, 0xE4, 0xE4] = .ok (.decBc1 redBlue, []) := by decide
theorem test_decode_bc2 : decode 2 [0x10, 0x32, 0x54, 0x76, 0x98, 0xBA, 0xDC, 0xFE,
    0x1F, 0x00, 0x00, 0xF8, 0xE4, 0xE4, 0xE4, 0xE4] = .ok (.decBc2 ramp blueRed, []) := by decide
theorem test_decode_bc3 : decode 3 [0xC8, 0x64, 0x88, 0xC6, 0xFA, 0x77, 0x39, 0x05,
    0xFF, 0xFF, 0x00, 0x00, 0x00, 0x55, 0xAA, 0xFF] =
    .ok (.decBc3 falling ⟨0xFFFF, 0, [0, 0, 0, 0, 1, 1, 1, 1, 2, 2, 2, 2, 3, 3, 3, 3]⟩, []) := by decide
theorem test_decode_bc4 :
    decode 4 [0x64, 0xC8, 0x88, 0xC6, 0xFA, 0x77, 0x39, 0x05, 0x99] = .ok (.decBc4 rising, [0x99]) := by decide
theorem test_decode_bc5 : decode 5 [0xFF, 0x00, 0x88, 0xC6, 0xFA, 0x88, 0xC6, 0xFA,
    0x00, 0xFF, 0x77, 0x39, 0x05, 0x77, 0x39, 0x05] =
    .ok (.decBc5 ⟨255, 0, [0, 1, 2, 3, 4, 5, 6, 7, 0, 1, 2, 3, 4, 5, 6, 7]⟩
      ⟨0, 255, [7, 6, 5, 4, 3, 2, 1, 0, 7, 6, 5, 4, 3, 2, 1, 0]⟩, []) := by decide
theorem test_decode_rsvd6 : decode 6 [] = .ok (.rsvd6, []) := by decide
theorem test_decode_rsvd7 : decode 7 [] = .ok (.rsvd7, []) := by decide
theorem test_decode_truncated : decode 3 (List.replicate 15 0) = .error .truncatedBlock := by decide
theorem test_encode_bc1 : encode (.decBc1 redBlue) = (1, [0x00, 0xF8, 0x1F, 0x00, 0xE4, 0xE4, 0xE4, 0xE4]) := by decide
theorem test_encode_bc2_alpha : encodeX64 ramp = [0x10, 0x32, 0x54, 0x76, 0x98, 0xBA, 0xDC, 0xFE] := by decide
theorem test_encode_bc4 :
    encode (.decBc4 falling) = (4, [0xC8, 0x64, 0x88, 0xC6, 0xFA, 0x77, 0x39, 0x05]) := by decide

/-! ## One step of each instruction (sections 2.7, 2.8, 3) -/

set_option maxRecDepth 4000 in
/-- V-B1, the last two texels of the first row. -/
theorem test_step_bc1 : outBytes (step (accepted .bc1 4 4 8 [0x00, 0xF8, 0x1F, 0x00, 0xE4, 0xE4, 0xE4, 0xE4])) 8 8 =
    [0xAA, 0, 0x55, 0xFF, 0x55, 0, 0xAA, 0xFF] := by decide

/-- The second block of P1 as the last one of a 5 × 2 image: only column 0, rows 0 and 1 are inside. -/
def lastOfTwo : State :=
  { accepted .bc1 5 2 16 [] with
    inMem := Memory.writeBytes [] 8 [0x1F, 0x00, 0xFF, 0xFF, 0x00, 0x55, 0xAA, 0xFF], cur := 8, bxi := 1 }

theorem test_step_bc1_clipped : outBytes (step lastOfTwo) 15 6 = [0, 0, 0, 0xFF, 0xFF, 0] ∧
    outBytes (step lastOfTwo) 35 6 = [0, 0xFF, 0xFF, 0xFF, 0xFF, 0] ∧
    after (step lastOfTwo) (fun t => t.status.toNat) = 2 := by decide

/-- P5: the smallest image; its one block step ends the command. -/
theorem test_step_bc2 :
    let s := accepted .bc2 1 1 16 [0x09, 0, 0, 0, 0, 0, 0, 0, 0x34, 0x12, 0xCD, 0xAB, 0x02, 0, 0, 0]
    outBytes (step s) 0 5 = [0x44, 0x56, 0x92, 0x99, 0] ∧ after (step s) (fun t => t.status.toNat) = 2 ∧
      after (step s) (fun t => t.cur.toNat) = 16 := by decide

/-- P2, second row: 3 × 2 pixels. -/
theorem test_step_bc3 : outBytes (step (accepted .bc3 3 2 16 [0xFF, 0x00, 0x10, 0x9D, 0xF5, 0x00, 0xF0, 0xFF,
    0xE0, 0x07, 0x1F, 0xF8, 0xE4, 0x1B, 0x55, 0xAA])) 12 13 =
    [0xAA, 0x55, 0xAA, 0x00, 0x55, 0xAA, 0x55, 0xB6, 0xFF, 0x00, 0xFF, 0x6D, 0] := by decide

/-- V-B6c: the counting block. -/
theorem test_step_bc4 : outBytes (step (accepted .bc4 4 4 8 counting)) 0 16 =
    [0x1C, 0x01, 0x1C, 0x0F, 0x00, 0x08, 0x08, 0x15, 0x0F, 0x1C, 0x00, 0x00, 0x15, 0xFF, 0x0F, 0xFF] := by decide

/-- V-B7, first row. -/
theorem test_step_bc5 : outBytes (step (accepted .bc5 4 4 16 [0xFF, 0x00, 0x88, 0xC6, 0xFA, 0x88, 0xC6, 0xFA,
    0x00, 0xFF, 0x77, 0x39, 0x05, 0x77, 0x39, 0x05])) 0 8 =
    [0xFF, 0xFF, 0, 0, 0xDB, 0xCC, 0xB6, 0x99] := by decide

/-- V-B2 and V-B3: punch-through mode, with either bias. -/
theorem test_patch_bc1_punch : (patchBc1 0 blueRed).getD 2 [] = [0x7F, 0, 0x7F, 0xFF] ∧
    (patchBc1 1 blueRed).getD 2 [] = [0x80, 0, 0x80, 0xFF] ∧ (patchBc1 1 blueRed).getD 3 [] = [0, 0, 0, 0] := by decide

/-- Section 2.8: the refused commands. -/
theorem test_start_rsvd0 : after (step (idle 0 4 4 16 (.writeCtrl 1))) (fun t => t.status.toNat) = 10 := by decide
theorem test_start_rsvd6 : after (step (idle 6 4 4 16 (.writeCtrl 1))) (fun t => t.status.toNat) = 10 := by decide
theorem test_start_rsvd7 : after (step (idle 7 0 4 16 (.writeCtrl 1))) (fun t => t.status.toNat) = 10 := by decide
theorem test_start_dimensions : after (step (idle 1 0 4 8 (.writeCtrl 1))) (fun t => t.status.toNat) = 14 ∧
    after (step (idle 5 4 0 16 (.writeCtrl 1))) (fun t => t.status.toNat) = 14 := by decide
theorem test_start_short : after (step (idle 3 4 4 8 (.writeCtrl 1))) (fun t => t.status.toNat) = 6 ∧
    after (step (idle 1 5 5 31 (.writeCtrl 1))) (fun t => t.status.toNat) = 6 ∧
    after (step (idle 2 4294967295 4294967295 18446744073709551615 (.writeCtrl 1))) (fun t => t.status.toNat) = 6 := by
  decide
theorem test_start_accepted : after (step (idle 1 5 5 32 (.writeCtrl 1))) (fun t => t.status.toNat) = 1 ∧
    after (step (idle 1 4294967295 1 8589934592 (.writeCtrl 1))) (fun t => t.status.toNat) = 1 := by decide
/-- The length check with the OPEN parameter at either value. -/
theorem test_start_strict : (State.checkArgs (idle 1 4 4 9 .pass) false .bc1).status = 1 ∧
    (State.checkArgs (idle 1 4 4 9 .pass) true .bc1).status = 6 := by decide

/-- The instruction placed by `withFetchWord` is the one the next step runs. -/
theorem test_fetch_word_bc4 : after (step (State.reset.withFetchWord 8 4)) (fun t => t.status.toNat) = 2 ∧
    (decodeTableWord 8 4).map Instr.code = some 4 := by decide
theorem test_fetch_word_rsvd7 : after (step (State.reset.withFetchWord 8 7)) (fun t => t.status.toNat) = 10 ∧
    decodeTableWord 8 7 = some .rsvd7 := by decide

/-! ## Witnesses of the statements' hypotheses -/

theorem witness_decode_of_encode : (Instr.decBc1 redBlue).wf = true ∧ (Instr.decBc2 ramp blueRed).wf = true ∧
    (Instr.decBc3 falling redBlue).wf = true ∧ (Instr.decBc4 rising).wf = true ∧ (Instr.decBc5 falling rising).wf = true ∧
    Instr.rsvd0.wf = true ∧ Instr.rsvd6.wf = true ∧ Instr.rsvd7.wf = true := by decide

theorem witness_encode_of_decode : decode 4 ([0xC8, 0x64, 0x88, 0xC6, 0xFA, 0x77, 0x39, 0x05] ++ [0x01]) =
    .ok (.decBc4 falling, [0x01]) := by decide

theorem witness_field_bit : (3 : Nat) < 16 := by decide

theorem witness_interp : ((0 : Nat) ≤ 3 ∧ (1 : Nat) ≤ 3) ∧ ((7 : Nat) ≤ 7 ∧ (1 : Nat) ≤ 7) := by decide

theorem witness_opaque : punchThrough true redBlue = false ∧ punchThrough false blueRed = false := by decide

theorem witness_punch : (1 ≤ 1 ∧ blueRed.c0.toNat ≤ blueRed.c1.toNat) ∧
    (0 ≤ 1 ∧ (⟨0x1234, 0x1234, []⟩ : C64).c0.toNat ≤ (⟨0x1234, 0x1234, []⟩ : C64).c1.toNat) := by decide

theorem witness_seven : (⟨1, 0, []⟩ : A64).a0.toNat > (⟨1, 0, []⟩ : A64).a1.toNat := by decide

theorem witness_five : (⟨128, 128, []⟩ : A64).a0.toNat ≤ (⟨128, 128, []⟩ : A64).a1.toNat := by decide

theorem witness_texel_numbers : (0 : Nat) < 16 ∧ (15 : Nat) < 16 := by decide

theorem witness_halves : (List.replicate 8 (0x11 : Byte)).length = 8 ∧ counting.length = 8 ∧ (15 : Nat) < 16 ∧
    (Format.bc3 = Format.bc2 ∨ Format.bc3 = Format.bc3) := by decide

theorem witness_halves_of_a_block : (List.replicate 8 (0x11 : Byte)).length = 8 ∧ counting.length = 8 ∧
    decode 5 (counting ++ List.replicate 8 0x11) = .ok (.decBc5 ⟨1, 35, [5, 0, 5, 3, 6, 2, 2, 4, 3, 5, 6, 6, 4, 7, 3, 7]⟩
      ⟨17, 17, [1, 2, 4, 0, 1, 2, 4, 0, 1, 2, 4, 0, 1, 2, 4, 0]⟩, []) := by decide

theorem witness_block_step : formatOf (Instr.decBc1 redBlue).code = some .bc1 ∧
    formatOf (Instr.decBc2 ramp redBlue).code = some .bc2 ∧ formatOf (Instr.decBc3 falling redBlue).code = some .bc3 ∧
    formatOf (Instr.decBc4 falling).code = some .bc4 ∧ formatOf (Instr.decBc5 falling rising).code = some .bc5 := by decide

/-- In-bounds and clipped texels of the first block of a 3 × 2 image. -/
theorem witness_texels : State.texelAddr (accepted .bc3 3 2 16 []) .bc3 6 = some 20 ∧
    State.texelAddr (accepted .bc3 3 2 16 []) .bc3 3 = none ∧ 4 * (0#30).toNat + 2 < (3#32).toNat := by decide

/-- A byte outside every stored texel: the first one past the image. -/
theorem witness_kept_byte : ∀ n, n < 16 → ∀ a, State.texelAddr (accepted .bc3 3 2 16 []) .bc3 n = some a →
    24 < a ∨ a + Format.bc3.chan ≤ 24 := by
  intro n hn a h
  have hall : ∀ n, n < 16 → (match State.texelAddr (accepted .bc3 3 2 16 []) .bc3 n with
      | some a => decide (24 < a ∨ a + Format.bc3.chan ≤ 24)
      | none => true) = true := by decide
  have := hall n hn
  rw [h] at this
  exact of_decide_eq_true this

/-- The three cases of the advance: next column, next row, end of the command. -/
theorem witness_advance :
    ((accepted .bc1 5 5 32 []).bxi.toNat + 1 < ((accepted .bc1 5 5 32 []).width.toNat + 3) / 4) ∧
    (¬ (1#30).toNat + 1 < ((5#32).toNat + 3) / 4 ∧ (0#30).toNat + 1 < ((5#32).toNat + 3) / 4) ∧
    (¬ (1#30).toNat + 1 < ((5#32).toNat + 3) / 4 ∧ ¬ (1#30).toNat + 1 < ((5#32).toNat + 3) / 4) := by decide

theorem witness_frame : ∃ t, exec (.decBc4 falling) State.reset = .next t ∧
    formatOf (Instr.decBc4 falling).code = some .bc4 := ⟨_, rfl, by decide⟩

theorem witness_reserved : (Instr.rsvd0 = .rsvd0 ∨ Instr.rsvd0 = .rsvd6 ∨ Instr.rsvd0 = .rsvd7) ∧
    (Instr.rsvd7 = .rsvd0 ∨ Instr.rsvd7 = .rsvd6 ∨ Instr.rsvd7 = .rsvd7) := by decide

theorem witness_fetch : formatOf (accepted .bc4 4 4 8 counting).format = some .bc4 ∧ Format.bc4.size ≤ 8 ∧
    ∀ c ∈ (accepted .bc4 4 4 8 counting).inLog, c.1 ≠ 0 := by decide

theorem witness_step_block : (accepted .bc4 4 4 8 counting).busy = true ∧
    formatOf (accepted .bc4 4 4 8 counting).format = some .bc4 ∧
    decode (accepted .bc4 4 4 8 counting).format ((accepted .bc4 4 4 8 counting).fetchBytes 0 8) =
      .ok (.decBc4 ⟨1, 35, [5, 0, 5, 3, 6, 2, 2, 4, 3, 5, 6, 6, 4, 7, 3, 7]⟩, []) ∧
    (accepted .bc4 4 4 8 counting).cur.toNat = 0 ∧ Format.bc4.size = 8 ∧
    (accepted .bc4 4 4 8 counting).host = [] ∧ (accepted .bc4 4 4 8 counting).outLog = [] ∧
    (accepted .bc4 4 4 8 counting).inLog = [] := by decide

theorem witness_step_pass : ∃ (u : State) (rest : List HostOp), u.host = .pass :: rest ∧
    u.popHost rest = { accepted .bc4 4 4 8 counting with freeCtr := 1 } :=
  ⟨{ accepted .bc4 4 4 8 counting with host := [.pass] }, [], rfl, rfl⟩

theorem witness_step_reserved : (idle 6 4 4 16 (.writeCtrl 1)).host = .writeCtrl 1 :: [] ∧
    (idle 6 4 4 16 (.writeCtrl 1)).busy = false ∧ decode (idle 6 4 4 16 (.writeCtrl 1)).format [] = .ok (.rsvd6, []) := by
  decide

theorem witness_idle : State.reset.host = [] ∧ State.reset.busy = false := by decide

/-- The four outcomes of the check step, at the values where they meet. -/
theorem witness_start : (idle 1 5 5 31 (.writeCtrl 1)).host = [.writeCtrl 1] ∧ (idle 1 5 5 31 (.writeCtrl 1)).busy = false ∧
    ((7 : BitVec 3) = 0 ∨ (7 : BitVec 3) = 6 ∨ (7 : BitVec 3) = 7) ∧ (1 : BitVec 3) = Format.bc1.code ∧
    ((0 : BitVec 32) = 0 ∨ (5 : BitVec 32) = 0) ∧ ¬ ((1 : BitVec 32) = 0 ∨ (1 : BitVec 32) = 0) ∧
    (31#64).toNat < ((5#32).toNat + 3) / 4 * (((5#32).toNat + 3) / 4) * Format.bc1.size ∧
    ¬ (32#64).toNat < ((5#32).toNat + 3) / 4 * (((5#32).toNat + 3) / 4) * Format.bc1.size ∧
    ¬ (32#64).toNat ≠ ((5#32).toNat + 3) / 4 * (((5#32).toNat + 3) / 4) * Format.bc1.size := by decide

/-- A running command with one host access pending. -/
def busyWith (op : HostOp) : State := { accepted .bc1 5 5 40 [] with host := [op], cur := 8, bxi := 1 }

theorem witness_ctrl : ((busyWith (.writeCtrl 1)).host = [.writeCtrl 1] ∧ (busyWith (.writeCtrl 1)).busy = true) ∧
    ((idle 1 4 4 8 (.writeCtrl 0)).host = [.writeCtrl 0] ∧ (0 : BitVec 1) = 0) := by decide

theorem witness_frozen : (busyWith (.writeWidth 9)).busy = true ∧ (busyWith (.writeWidth 9)).host = [.writeWidth 9] ∧
    (busyWith (.writeFormat 9)).host = [.writeFormat 9] ∧ (busyWith (.writeHeight 9)).host = [.writeHeight 9] ∧
    (busyWith (.writeInLen 9)).host = [.writeInLen 9] ∧ (busyWith (.readReg .format)).host = [.readReg .format] ∧
    (busyWith (.readReg .width)).host = [.readReg .width] ∧ (busyWith (.readReg .height)).host = [.readReg .height] ∧
    (busyWith (.readReg .inLen)).host = [.readReg .inLen] := by decide

theorem witness_idle_writes : (idle 0 0 0 0 (.writeFormat 5)).busy = false ∧
    (idle 0 0 0 0 (.writeFormat 5)).host = [.writeFormat 5] ∧ (idle 0 0 0 0 (.writeWidth 5)).host = [.writeWidth 5] ∧
    (idle 0 0 0 0 (.writeHeight 5)).host = [.writeHeight 5] ∧ (idle 0 0 0 0 (.writeInLen 5)).host = [.writeInLen 5] := by
  decide

theorem witness_reads : (busyWith (.readReg .status)).host = [.readReg .status] ∧
    (busyWith (.readReg .ctrl)).host = [.readReg .ctrl] ∧
    after (step (busyWith (.readReg .status))) (fun t => t.rdata.toNat) = 1 := by decide

theorem witness_result_kept : ∃ t, step (idle 1 4 4 8 (.writeWidth 5)) = .next t ∧
    (idle 1 4 4 8 (.writeWidth 5)).busy = false ∧
    (∀ rest, (idle 1 4 4 8 (.writeWidth 5)).host ≠ .writeCtrl 1 :: rest) ∧
    ∀ rest, (idle 1 4 4 8 (.writeWidth 5)).host ≠ .reset :: rest :=
  ⟨_, rfl, by decide, fun rest => by simp [idle], fun rest => by simp [idle]⟩

theorem witness_reset : ((busyWith .reset).host = [.reset] ∧ (busyWith .reset).running = some .bc1) ∧
    ((idle 1 4 4 8 .reset).host = [.reset] ∧ (idle 1 4 4 8 .reset).busy = false) ∧
    (busyWith .reset).outSize .bc1 = 100 ∧ (100 : Nat) ≤ 100 ∧ (99 : Nat) < 100 := by decide

theorem witness_host_access : ∃ t, step (busyWith (.writeIn 40 1)) = .next t ∧
    (busyWith (.writeIn 40 1)).host = [.writeIn 40 1] ∧ HostOp.writeIn 40 1 ≠ .pass ∧ HostOp.writeIn 40 1 ≠ .reset ∧
    ∀ v, HostOp.writeIn 40 1 ≠ .writeCtrl v := ⟨_, rfl, by decide, by decide, by decide, fun v h => by cases h⟩

theorem witness_core_step : (∃ t, step (accepted .bc4 4 4 8 counting) = .next t) ∧
    (accepted .bc4 4 4 8 counting).host = [] ∧ (∃ t, step (busyWith .pass) = .next t) ∧
    (∃ t, step (busyWith (.writeCtrl 1)) = .next t) := ⟨⟨_, rfl⟩, rfl, ⟨_, rfl⟩, ⟨_, rfl⟩⟩

/-- A write of IN at `required`, just below it (a block still to come), and in a block already handled. -/
theorem witness_input_write : (busyWith (.writeIn 32 1)).running = some .bc1 ∧
    (busyWith (.writeIn 32 1)).required .bc1 = 32 ∧ (32 : Nat) ≤ 32 ∧ (31 : Nat) < 32 ∧
    (busyWith (.writeIn 31 1)).cur.toNat ≤ 31 / Format.bc1.size * Format.bc1.size ∧
    ¬ (busyWith (.writeIn 7 1)).cur.toNat ≤ 7 / Format.bc1.size * Format.bc1.size := by decide

/-- A rewritten byte of a block already handled, a pixel of that block and a pixel of the next one. -/
theorem witness_rewritten : (busyWith (.writeIn 7 1)).running = some .bc1 ∧
    (busyWith (.writeIn 7 1)).host = [.writeIn 7 1] ∧ 7 < (busyWith (.writeIn 7 1)).required .bc1 ∧
    7 / Format.bc1.size * Format.bc1.size < (busyWith (.writeIn 7 1)).cur.toNat ∧
    (busyWith (.writeIn 7 1)).blockOf 3 3 = 7 / Format.bc1.size ∧
    (busyWith (.writeIn 7 1)).blockOf 4 3 ≠ 7 / Format.bc1.size := by decide

/-- A read of OUT at `out_size` and just below it while a command runs, and on an idle core. -/
theorem witness_output_read : (busyWith (.readOut 100)).running = some .bc1 ∧
    (busyWith (.readOut 100)).outSize .bc1 ≤ 100 ∧ 99 < (busyWith (.readOut 99)).outSize .bc1 ∧
    (busyWith (.readOut 99)).host = [.readOut 99] ∧
    (idle 1 4 4 8 (.readOut 0)).busy = false ∧ (idle 1 4 4 8 (.readOut 0)).host = [.readOut 0] := by decide

theorem witness_output_write : (busyWith (.writeOut 100 7)).running = some .bc1 ∧
    (busyWith (.writeOut 100 7)).outSize .bc1 ≤ 100 ∧ 99 < (busyWith (.writeOut 99 7)).outSize .bc1 ∧
    (busyWith (.writeOut 99 7)).host = [.writeOut 99 7] ∧ (∀ c ∈ (busyWith (.writeOut 99 7)).outLog, c.1 ≠ 98) ∧
    (idle 1 4 4 8 (.writeOut 0 7)).busy = false ∧ (idle 1 4 4 8 (.writeOut 0 7)).host = [.writeOut 0 7] := by decide

/-- An idle write of IN, and a START that is accepted with either value of the OPEN parameter. -/
theorem witness_idle_input : ((idle 1 4 4 8 (.writeIn 7 1)).host = [.writeIn 7 1] ∧ (idle 1 4 4 8 (.writeIn 7 1)).busy = false) ∧
    (idle 1 5 5 32 (.writeCtrl 1)).host = [.writeCtrl 1] ∧ (idle 1 5 5 32 (.writeCtrl 1)).busy = false ∧
    ∃ t, step (idle 1 5 5 32 (.writeCtrl 1)) = .next t ∧ t.busy = true :=
  ⟨⟨rfl, by decide⟩, rfl, by decide, _, rfl, by decide⟩

/-- The running command of P1, before its second block step. -/
theorem witness_command : (busyWith .pass).CommandOk .bc1 :=
  ⟨by decide, by decide, by decide, by decide, by decide, by decide, by decide⟩

theorem witness_invariant : (busyWith .pass).Inv ∧ (busyWith .pass).busy = true ∧ ∃ t, step (busyWith .pass) = .next t :=
  ⟨⟨⟨by decide, by decide, by decide⟩, ⟨by decide, by decide⟩, fun _ => ⟨.bc1, witness_command⟩⟩, by decide, _, rfl⟩

/-- A pixel of the block about to be stepped, and one of another block. -/
theorem witness_block_mixtures : (busyWith .pass).host = .pass :: [] ∧ (busyWith .pass).busy = true ∧
    (4 : Nat) / 4 = (busyWith .pass).bxi.toNat ∧ (3 : Nat) / 4 = (busyWith .pass).byi.toNat ∧
    (3 : Nat) / 4 ≠ (busyWith .pass).bxi.toNat := by decide

/-- A running command whose OUT still holds the old bytes, with a reset or a core step to come. -/
theorem witness_out_bytes : ((busyWith .pass).OutBytesOk ∧ ∃ t, step (busyWith .pass) = .next t) ∧
    (busyWith .reset).OutBytesOk ∧ (busyWith .reset).running = some .bc1 ∧
    (busyWith .reset).pixelByte .bc1 4 4 3 = 99 :=
  ⟨⟨fun _ _ _ _ _ _ _ _ => .inl rfl, _, rfl⟩, fun _ _ _ _ _ _ _ _ => .inl rfl, by decide, by decide⟩

theorem witness_status_ok : State.reset.StatusOk ∧ ∃ t, step State.reset = .next t :=
  ⟨⟨by decide, by decide⟩, _, rfl⟩

theorem witness_pixel : (4 : Nat) < (accepted .bc1 5 5 32 []).width.toNat ∧ (4 : Nat) < (accepted .bc1 5 5 32 []).height.toNat ∧
    (1 : Nat) < (accepted .bc1 5 5 32 []).blocksWide ∧ (1 : Nat) < (accepted .bc1 5 5 32 []).blocksHigh := by decide

/-- An accepted command, as CommandTakesOneStepPerBlock, CommandComputesDecode and OutputDependsOnInputOnly take it. -/
theorem witness_accepted : (accepted .bc1 5 5 32 []).CommandOk .bc1 ∧ (accepted .bc1 5 5 32 []).host = [] ∧
    (accepted .bc1 5 5 32 []).status = 0b0001 ∧ (accepted .bc1 5 5 32 []).cur = 0 ∧ (accepted .bc1 5 5 32 []).bxi = 0 ∧
    (accepted .bc1 5 5 32 []).byi = 0 ∧ (accepted .bc1 5 5 32 []).inLog = [] ∧ (accepted .bc1 5 5 32 []).outLog = [] ∧
    3 < (accepted .bc1 5 5 32 []).nblocks ∧ (3 : Nat) < Format.bc1.chan :=
  ⟨⟨by decide, by decide, by decide, by decide, by decide, by decide, by decide⟩,
   by decide, by decide, by decide, by decide, by decide, by decide, by decide, by decide, by decide⟩

/-- Two accepted commands that differ only above `required` in IN. -/
theorem witness_two_commands : (accepted .bc1 5 5 33 (List.replicate 33 0)).CommandOk .bc1 ∧
    (accepted .bc1 5 5 33 (List.replicate 33 0)).width = (accepted .bc1 5 5 32 []).width ∧
    (accepted .bc1 5 5 33 (List.replicate 33 0)).height = (accepted .bc1 5 5 32 []).height ∧
    ∀ a, a < (accepted .bc1 5 5 33 (List.replicate 33 0)).required .bc1 →
      (accepted .bc1 5 5 33 (List.replicate 33 0)).inMem.read a = (accepted .bc1 5 5 32 []).inMem.read a :=
  ⟨⟨by decide, by decide, by decide, by decide, by decide, by decide, by decide⟩, by decide, by decide, by decide⟩

end Sys2Proof.Tests
end

section
/-! Proofs: the host's accesses and the machine's invariant. What a step can do to the core, said once
(`step_cases`), then what each kind of step keeps of STATUS, of the memories and of a running command. -/
namespace Sys2Proof.Machine

/-! ## STATUS -/

/-- Three fields that R19 allows together make a legal STATUS. -/
theorem State.statusOk_of_word (s : State) (b d : Bool) (e : BitVec 2) (h : s.status = statusWord b d e)
    (hbd : ¬ (b = true ∧ d = true)) (hed : e ≠ 0 → d = true) : s.StatusOk := by
  have hb : s.busy = b := by rw [State.busy, h, statusWord_busy]
  have hd : s.done = d := by rw [State.done, h, statusWord_done]
  have he : s.err = e := by rw [State.err, h, statusWord_err]
  exact ⟨by rwa [hb, hd], by rwa [he, hd]⟩

/-- STATUS at the end of a command, with whatever error code, is legal (R125, R141). -/
theorem State.statusOk_of_ended (s : State) (e : BitVec 2) (h : s.status = statusWord false true e) : s.StatusOk :=
  s.statusOk_of_word false true e h (by simp) (fun _ => rfl)

/-- Whether STATUS is legal depends on STATUS alone. -/
theorem State.StatusOk.congr {s t : State} (hs : s.StatusOk) (h : t.status = s.status) : t.StatusOk :=
  t.statusOk_of_word s.busy s.done s.err (h.trans s.status_eq) hs.notBoth hs.errDone

theorem State.busy_congr {s t : State} (h : t.status = s.status) : t.busy = s.busy := by rw [State.busy, h, State.busy]

/-- The STATUS word as a number (R19). -/
theorem statusWord_toNat :
    ∀ (b d : Bool) (e : BitVec 2), (statusWord b d e).toNat = b.toNat + 2 * d.toNat + 4 * e.toNat := by decide

/-! ## A running command -/

/-- What holds of a running command depends on the configuration, the cursor and the counters alone. -/
theorem State.CommandOk.congr {s t : State} {f : Format} (hs : s.CommandOk f) (hfmt : t.format = s.format)
    (hw : t.width = s.width) (hh : t.height = s.height) (hl : t.inLen = s.inLen) (hx : t.bxi = s.bxi)
    (hy : t.byi = s.byi) (hc : t.cur = s.cur) : t.CommandOk f := by
  have hbw : t.blocksWide = s.blocksWide := by rw [State.blocksWide, hw, State.blocksWide]
  have hbh : t.blocksHigh = s.blocksHigh := by rw [State.blocksHigh, hh, State.blocksHigh]
  have hr : t.required f = s.required f := by rw [State.required, State.nblocks, hbw, hbh, State.required, State.nblocks]
  exact
    { legal := hfmt ▸ hs.legal
      wide := hw ▸ hs.wide
      high := hh ▸ hs.high
      long := by rw [hr, hl]; exact hs.long
      column := by rw [hx, hbw]; exact hs.column
      row := by rw [hy, hbh]; exact hs.row
      cursor := by rw [hc, hx, hy, hbw]; exact hs.cursor }

theorem ceil4_pos {n : Nat} (h : 0 < n) : 0 < ceil4 n := by unfold ceil4; omega

/-- A counter of blocks does not wrap: an image has at most `2 ^ 30` blocks in each direction (R14, R120). -/
theorem ceil4_le (n : BitVec 32) : ceil4 n.toNat ≤ 2 ^ 30 := by
  have := n.isLt
  unfold ceil4
  omega

theorem toNat_succ_of_lt_ceil4 (c : BitVec 30) (n : BitVec 32) (h : c.toNat + 1 < ceil4 n.toNat) :
    (c + 1).toNat = c.toNat + 1 := by
  have hn := ceil4_le n
  bv_omega

/-- The current block of a running command lies inside the input that the host declared (R36, R123). -/
theorem State.CommandOk.cur_add_size_le {s : State} {f : Format} (h : s.CommandOk f) :
    s.cur.toNat + f.size ≤ s.inLen.toNat := by
  calc s.cur.toNat + f.size = (s.byi.toNat * s.blocksWide + (s.bxi.toNat + 1)) * f.size := by rw [h.cursor]; ring
    _ ≤ (s.byi.toNat * s.blocksWide + s.blocksWide) * f.size :=
      Nat.mul_le_mul_right _ (Nat.add_le_add_left h.column _)
    _ = (s.byi.toNat + 1) * s.blocksWide * f.size := by ring
    _ ≤ s.blocksHigh * s.blocksWide * f.size := Nat.mul_le_mul_right _ (Nat.mul_le_mul_right _ h.row)
    _ = s.required f := by rw [State.required, State.nblocks, mul_comm s.blocksHigh]
    _ ≤ s.inLen.toNat := h.long

/-- The cursor of a running command moves past its block without wrapping (R13). -/
theorem State.CommandOk.advance_cur_toNat {s : State} {f : Format} (h : s.CommandOk f) :
    (s.advance f).cur.toNat = s.cur.toNat + f.size := by
  have hle := h.cur_add_size_le
  have hlen := s.inLen.isLt
  have hsize := f.size_le
  rw [State.advance_cur, BitVec.toNat_add, BitVec.toNat_ofNat, Nat.mod_eq_of_lt (show f.size < 2 ^ 65 by omega)]
  exact Nat.mod_eq_of_lt (by omega)

/-- The advance takes a running command to its next block, or ends it (R122, R125). -/
theorem State.CommandOk.advance {s : State} {f : Format} (h : s.CommandOk f) (hb : (s.advance f).busy = true) :
    (s.advance f).CommandOk f := by
  have hcol := h.column
  have hcur := h.advance_cur_toNat
  rw [h.cursor] at hcur
  suffices hpos : (s.advance f).bxi.toNat < s.blocksWide ∧ (s.advance f).byi.toNat < s.blocksHigh ∧
      (s.advance f).byi.toNat * s.blocksWide + (s.advance f).bxi.toNat =
        s.byi.toNat * s.blocksWide + s.bxi.toNat + 1 by
    obtain ⟨hx, hy, hn⟩ := hpos
    exact
      { legal := by rw [State.advance_format]; exact h.legal
        wide := by rw [State.advance_width]; exact h.wide
        high := by rw [State.advance_height]; exact h.high
        long := by simpa [State.required] using h.long
        column := by rw [State.advance_blocksWide]; exact hx
        row := by rw [State.advance_blocksHigh]; exact hy
        cursor := by rw [hcur, State.advance_blocksWide, hn]; ring }
  rcases s.advance_cases f with ⟨hx, ex, ey, -⟩ | ⟨hx, hy, ex, ey, -⟩ | ⟨-, -, -, -, est⟩
  · have hx1 : (s.advance f).bxi.toNat = s.bxi.toNat + 1 := by rw [ex]; exact toNat_succ_of_lt_ceil4 _ _ hx
    rw [hx1, ey]
    exact ⟨hx, h.row, by ring⟩
  · have hy1 : (s.advance f).byi.toNat = s.byi.toNat + 1 := by rw [ey]; exact toNat_succ_of_lt_ceil4 _ _ hy
    have hx0 : (s.advance f).bxi.toNat = 0 := by rw [ex]; rfl
    have hlast : s.bxi.toNat + 1 = s.blocksWide := by omega
    rw [hy1, hx0]
    exact ⟨Nat.zero_lt_of_lt hcol, hy, by rw [← hlast]; ring⟩
  · rw [State.busy, est, statusWord_busy] at hb
    exact absurd hb Bool.false_ne_true

/-- An accepted command begins at block 0 (R148). -/
theorem State.accept_commandOk (s : State) (f : Format) (hf : formatOf s.format = some f) (hw : s.width ≠ 0)
    (hh : s.height ≠ 0) (hl : s.required f ≤ s.inLen.toNat) : s.accept.CommandOk f :=
  { legal := hf
    wide := hw
    high := hh
    long := hl
    column := ceil4_pos (Nat.pos_of_ne_zero fun e => hw (BitVec.eq_of_toNat_eq e))
    row := ceil4_pos (Nat.pos_of_ne_zero fun e => hh (BitVec.eq_of_toNat_eq e))
    cursor := by simp }

/-! ## The host's accesses -/

/-- What a host access that is neither pass, START nor reset leaves: STATUS and the core's registers, the configuration of a
running command, and the canonical form of the memories (R129, R148, R158). -/
structure State.CoreKept (s t : State) : Prop where
  status : t.status = s.status
  cur : t.cur = s.cur
  bxi : t.bxi = s.bxi
  byi : t.byi = s.byi
  blk : t.blk = s.blk
  patch : t.patch = s.patch
  config : s.busy = true → t.format = s.format ∧ t.width = s.width ∧ t.height = s.height ∧ t.inLen = s.inLen
  memories : s.MemoriesOk → t.MemoriesOk

theorem State.CoreKept.refl (s : State) : s.CoreKept s :=
  ⟨rfl, rfl, rfl, rfl, rfl, rfl, fun _ => ⟨rfl, rfl, rfl, rfl⟩, id⟩

theorem State.CoreKept.trans {s t u : State} (h : s.CoreKept t) (h' : t.CoreKept u) : s.CoreKept u where
  status := h'.status.trans h.status
  cur := h'.cur.trans h.cur
  bxi := h'.bxi.trans h.bxi
  byi := h'.byi.trans h.byi
  blk := h'.blk.trans h.blk
  patch := h'.patch.trans h.patch
  config hb := by
    obtain ⟨ef, ew, eh, el⟩ := h.config hb
    obtain ⟨ef', ew', eh', el'⟩ := h'.config ((State.busy_congr h.status).trans hb)
    exact ⟨ef'.trans ef, ew'.trans ew, eh'.trans eh, el'.trans el⟩
  memories hm := h'.memories (h.memories hm)

/-- A change of IN and OUT, of what the host has read and of the model's own fields is no change of the core. -/
theorem State.coreKept_of_memories (s : State) (inMem outMem : Memory) (host : List HostOp) (rdata : BitVec 64)
    (freeCtr : Nat) (inLog outLog : List Host.Cell) (hin : s.inMem.wf → inMem.wf) (hout : s.outMem.wf → outMem.wf) :
    s.CoreKept { s with inMem := inMem, outMem := outMem, host := host, rdata := rdata, freeCtr := freeCtr,
                        inLog := inLog, outLog := outLog } :=
  ⟨rfl, rfl, rfl, rfl, rfl, rfl, fun _ => ⟨rfl, rfl, rfl, rfl⟩, fun hm => ⟨hin hm.inOk, hout hm.outOk, hm.oldOk⟩⟩

/-- A write of the configuration that is ignored while busy is no change of the core (R158). -/
theorem State.coreKept_configWrite (s : State) (fmt : BitVec 3) (w h : BitVec 32) (len : BitVec 64) :
    s.CoreKept (if s.busy then s else { s with format := fmt, width := w, height := h, inLen := len }) := by
  split
  · exact .refl s
  · next hb => exact ⟨rfl, rfl, rfl, rfl, rfl, rfl, fun hb' => absurd hb' hb, fun hm => ⟨hm.inOk, hm.outOk, hm.oldOk⟩⟩

theorem State.popHost_coreKept (s : State) (rest : List HostOp) : s.CoreKept (s.popHost rest) :=
  s.coreKept_of_memories _ _ _ _ _ _ _ id id

theorem State.hostWriteIn_coreKept (s : State) (a : Nat) (v : Byte) : s.CoreKept (s.hostWriteIn a v) := by
  have hout := s.hostWriteIn_wf a v
  obtain ⟨m, log, e⟩ := s.hostWriteIn_frame a v
  rw [e] at hout ⊢
  exact s.coreKept_of_memories _ _ _ _ _ _ _ (Memory.write_wf _ a v) hout

theorem State.hostWriteOut_coreKept (s : State) (a : Nat) (v : Byte) : s.CoreKept (s.hostWriteOut a v) := by
  have hout := s.hostWriteOut_wf a v
  obtain ⟨m, log, e⟩ := s.hostWriteOut_frame a v
  rw [e] at hout ⊢
  exact s.coreKept_of_memories _ _ _ _ _ _ _ id hout

/-- A host access that is neither pass, a write of CTRL nor a reset keeps the core (R129, R148). -/
theorem hostStep_coreKept (s t : State) (op : HostOp) (hp : op ≠ .pass) (hr : op ≠ .reset) (hc : ∀ v, op ≠ .writeCtrl v)
    (h : hostStep op s = .next t) : s.CoreKept t := by
  cases op with
  | pass => exact absurd rfl hp
  | reset => exact absurd rfl hr
  | writeCtrl v => exact absurd rfl (hc v)
  | writeFormat v => cases h; exact s.coreKept_configWrite v s.width s.height s.inLen
  | writeWidth v => cases h; exact s.coreKept_configWrite s.format v s.height s.inLen
  | writeHeight v => cases h; exact s.coreKept_configWrite s.format s.width v s.inLen
  | writeInLen v => cases h; exact s.coreKept_configWrite s.format s.width s.height v
  | readReg r => cases h; exact s.coreKept_of_memories _ _ _ _ _ _ _ id id
  | readOut a => cases h; exact s.coreKept_of_memories _ _ _ _ _ _ _ id id
  | writeIn a v => cases h; exact s.hostWriteIn_coreKept a v
  | writeOut a v => cases h; exact s.hostWriteOut_coreKept a v

/-- A write of CTRL has no effect, or runs the check step of an idle core (R18, R161). -/
theorem writeCtrl_cases (v : BitVec 1) (s t : State) (h : writeCtrl v s = .next t) :
    ((v = 0 ∨ s.busy = true) ∧ t = s) ∨ (v ≠ 0 ∧ s.busy = false ∧ checkStep s = .next t) := by
  unfold writeCtrl at h
  split at h
  · next hv => exact .inl ⟨hv, (Host.Outcome.next.inj h).symm⟩
  · next hv =>
    rw [not_or] at hv
    exact .inr ⟨hv.1, Bool.eq_false_iff.2 hv.2, h⟩

/-- What a step can do to the core: the host's access keeps the core, and then nothing more happens, or the core takes
its own step, or an idle core takes the check step of a START, or the machine is reset. -/
theorem step_cases (s t : State) (h : step s = .next t) :
    ∃ u, s.CoreKept u ∧ (t = u ∨ coreStep u = .next t ∨ (u.busy = false ∧ checkStep u = .next t) ∨ t = u.hostReset) := by
  rcases hh : s.host with _ | ⟨op, rest⟩
  · rw [step_noHost s hh] at h
    exact ⟨s, .refl s, .inr (.inl h)⟩
  rw [step_host s op rest hh] at h
  have hpop := s.popHost_coreKept rest
  by_cases hp : op = .pass
  · subst hp
    exact ⟨_, hpop, .inr (.inl h)⟩
  by_cases hr : op = .reset
  · subst hr
    exact ⟨_, hpop, .inr (.inr (.inr (Host.Outcome.next.inj h).symm))⟩
  by_cases hc : ∃ v, op = .writeCtrl v
  · obtain ⟨v, rfl⟩ := hc
    refine ⟨_, hpop, ?_⟩
    rcases writeCtrl_cases v _ t h with ⟨-, e⟩ | ⟨-, hb, hk⟩
    · exact .inl e
    · exact .inr (.inr (.inl ⟨hb, hk⟩))
  · exact ⟨t, hpop.trans (hostStep_coreKept _ t op hp hr (not_exists.1 hc) h), .inl rfl⟩

/-! ## What each kind of step keeps of STATUS -/

/-- A block step leaves STATUS as it was, or ends the command (R125). -/
theorem State.blockStep_status_cases (s : State) (f : Format) (ts : List (List Byte)) (n : Nat) :
    ((s.fetchBlock.finishBlock f ts).settleBlock f n).status = s.status ∨
    ((s.fetchBlock.finishBlock f ts).settleBlock f n).status = statusWord false true s.err := by
  rw [State.settleBlock_status, State.finishBlock]
  rcases State.advance_cases ((s.fetchBlock.loadPatch ts).storePatch f) f with
    ⟨-, -, -, e⟩ | ⟨-, -, -, -, e⟩ | ⟨-, -, -, -, e⟩
  · exact .inl (by simpa using e)
  · exact .inl (by simpa using e)
  · exact .inr (by simpa using e)

theorem coreStep_statusOk (s t : State) (hs : s.StatusOk) (h : coreStep s = .next t) : t.StatusOk := by
  rcases coreStep_cases s t h with ⟨-, rfl⟩ | ⟨-, -, rfl⟩ | ⟨f, -, -, rfl⟩
  · exact hs
  · exact State.statusOk_of_ended _ _ rfl
  · rcases s.blockStep_status_cases f (decPatch f (s.fetchBytes s.cur.toNat f.size)) (s.cur.toNat / f.size) with e | e
    · exact hs.congr e
    · exact State.statusOk_of_ended _ _ e

/-- The check step leaves a legal STATUS whatever was there: it clears DONE and ERR (R148). -/
theorem checkStep_statusOk (s t : State) (h : checkStep s = .next t) : t.StatusOk := by
  rcases checkStep_cases s t h with ⟨e, rfl⟩ | ⟨f, -, -, -, -, rfl⟩
  · exact State.statusOk_of_ended _ _ rfl
  · exact State.statusOk_of_word _ true false 0 (by simp) (by simp) (by simp)

theorem State.reset_statusOk : State.reset.StatusOk := ⟨by decide, by decide⟩

@[simp] theorem State.hostReset_status (s : State) : s.hostReset.status = State.reset.status := rfl

@[simp] theorem State.hostReset_busy (s : State) : s.hostReset.busy = false := State.busy_congr s.hostReset_status

theorem State.hostReset_statusOk (s : State) : s.hostReset.StatusOk := State.reset_statusOk.congr s.hostReset_status

/-! ## What each kind of step keeps of the memories -/

theorem coreStep_memoriesOk (s t : State) (hs : s.MemoriesOk) (h : coreStep s = .next t) : t.MemoriesOk := by
  rcases coreStep_cases s t h with ⟨-, rfl⟩ | ⟨-, -, rfl⟩ | ⟨f, -, -, rfl⟩
  · exact hs
  · exact ⟨hs.inOk, hs.outOk, hs.oldOk⟩
  · refine ⟨?_, State.settleBlock_wf _ _ _ ?_, ?_⟩
    · simpa using hs.inOk
    · rw [State.finishBlock_outMem]
      exact State.storePatch_wf _ _ (by simpa using hs.outOk)
    · simpa using hs.oldOk

theorem checkStep_memoriesOk (s t : State) (hs : s.MemoriesOk) (h : checkStep s = .next t) : t.MemoriesOk := by
  rcases checkStep_cases s t h with ⟨e, rfl⟩ | ⟨f, -, -, -, -, rfl⟩
  · exact ⟨hs.inOk, hs.outOk, hs.oldOk⟩
  · exact ⟨hs.inOk, hs.outOk, hs.outOk⟩

theorem State.hostReset_inMem (s : State) : s.hostReset.inMem = s.inMem := rfl

/-- A reset of an idle core does not touch OUT (R155). -/
theorem State.hostReset_outMem_idle (s : State) (hb : s.busy = false) : s.hostReset.outMem = s.outMem := by
  unfold State.hostReset
  rw [s.running_idle hb]

theorem State.hostReset_memoriesOk (s : State) (hs : s.MemoriesOk) : s.hostReset.MemoriesOk := by
  refine ⟨hs.inOk, ?_, Memory.nil_wf⟩
  unfold State.hostReset
  dsimp only
  split
  · exact hs.outOk
  · exact State.abandonOut_wf _ _ _ hs.outOk

/-! ## What each kind of step keeps of a running command -/

/-- A command still running after a step of the core is at its next block (R122). -/
theorem coreStep_commandOk (s t : State) (hs : s.busy = true → ∃ f, s.CommandOk f) (h : coreStep s = .next t)
    (ht : t.busy = true) : ∃ f, t.CommandOk f := by
  rcases coreStep_cases s t h with ⟨-, rfl⟩ | ⟨-, -, rfl⟩ | ⟨f, hb, hf, rfl⟩
  · exact hs ht
  · rw [State.raiseError_busy] at ht
    exact absurd ht Bool.false_ne_true
  · obtain ⟨g, hg⟩ := hs hb
    obtain rfl : f = g := Option.some.inj (hf.symm.trans hg.legal)
    rw [State.settleBlock_busy] at ht
    have hstored : State.CommandOk
        ((s.fetchBlock.loadPatch (decPatch f (s.fetchBytes s.cur.toNat f.size))).storePatch f) f := by
      apply hg.congr <;> simp
    refine ⟨f, ?_⟩
    apply (hstored.advance ht).congr <;> simp [State.finishBlock]

/-- A command that the check step has accepted is at its first block (R148). -/
theorem checkStep_commandOk (s t : State) (h : checkStep s = .next t) (ht : t.busy = true) : ∃ f, t.CommandOk f := by
  rcases checkStep_cases s t h with ⟨e, rfl⟩ | ⟨f, hf, hw, hh, hl, rfl⟩
  · rw [State.raiseError_busy] at ht
    exact absurd ht Bool.false_ne_true
  · exact ⟨f, State.accept_commandOk _ f hf hw hh hl⟩

/-! ## The invariant, step by step -/

theorem State.CoreKept.inv {s t : State} (h : s.CoreKept t) (hs : s.Inv) : t.Inv where
  memories := h.memories hs.memories
  statusOk := hs.statusOk.congr h.status
  command ht := by
    have hb : s.busy = true := (State.busy_congr h.status).symm.trans ht
    obtain ⟨f, hf⟩ := hs.command hb
    obtain ⟨ef, ew, eh, el⟩ := h.config hb
    exact ⟨f, hf.congr ef ew eh el h.bxi h.byi h.cur⟩

theorem coreStep_inv (s t : State) (hs : s.Inv) (h : coreStep s = .next t) : t.Inv :=
  ⟨coreStep_memoriesOk s t hs.memories h, coreStep_statusOk s t hs.statusOk h, coreStep_commandOk s t hs.command h⟩

theorem checkStep_inv (s t : State) (hs : s.Inv) (h : checkStep s = .next t) : t.Inv :=
  ⟨checkStep_memoriesOk s t hs.memories h, checkStep_statusOk s t h, checkStep_commandOk s t h⟩

theorem State.hostReset_inv (s : State) (hs : s.Inv) : s.hostReset.Inv :=
  ⟨s.hostReset_memoriesOk hs.memories, s.hostReset_statusOk, fun hb => absurd hb (by simp)⟩

/-- Settles O47: every kind of step that `step_cases` names keeps the invariant. -/
theorem invariantKeptByStep : Obligations.InvariantKeptByStep := by
  unfold Obligations.InvariantKeptByStep
  intro s t hs h
  obtain ⟨u, hu, hstep⟩ := step_cases s t h
  have hinv : u.Inv := hu.inv hs
  rcases hstep with rfl | hcore | ⟨-, hcheck⟩ | rfl
  · exact hinv
  · exact coreStep_inv u t hinv hcore
  · exact checkStep_inv u t hinv hcheck
  · exact u.hostReset_inv hinv

/-- Settles O40: such an access keeps the core, and so does taking it from the pending ones. -/
theorem hostAccessLeavesCore : Obligations.HostAccessLeavesCore := by
  unfold Obligations.HostAccessLeavesCore
  intro s t op rest hh hp hr hc h
  rw [step_host s op rest hh] at h
  have hk := (s.popHost_coreKept rest).trans (hostStep_coreKept _ t op hp hr hc h)
  exact ⟨hk.status, hk.cur, hk.bxi, hk.byi, hk.blk, hk.patch⟩

/-- Settles O48, by the kinds of step. -/
theorem statusKeptLegal : Obligations.StatusKeptLegal := by
  unfold Obligations.StatusKeptLegal
  intro s t hs h
  obtain ⟨u, hu, hstep⟩ := step_cases s t h
  have hok : u.StatusOk := hs.congr hu.status
  rcases hstep with rfl | hcore | ⟨-, hcheck⟩ | rfl
  · exact hok
  · exact coreStep_statusOk u t hok hcore
  · exact checkStep_statusOk u t hcheck
  · exact u.hostReset_statusOk

/-! ## Accesses of an idle core -/

theorem State.hostWriteIn_idle (s : State) (a : Nat) (v : Byte) (hb : s.busy = false) :
    s.hostWriteIn a v = { s with inMem := s.inMem.write a v } := by
  rw [State.hostWriteIn, s.running_idle hb]

theorem State.hostWriteFormat_idle (s : State) (v : BitVec 3) (hb : s.busy = false) :
    s.hostWriteFormat v = { s with format := v } := by simp [State.hostWriteFormat, hb]

theorem State.hostWriteWidth_idle (s : State) (v : BitVec 32) (hb : s.busy = false) :
    s.hostWriteWidth v = { s with width := v } := by simp [State.hostWriteWidth, hb]

theorem State.hostWriteHeight_idle (s : State) (v : BitVec 32) (hb : s.busy = false) :
    s.hostWriteHeight v = { s with height := v } := by simp [State.hostWriteHeight, hb]

theorem State.hostWriteInLen_idle (s : State) (v : BitVec 64) (hb : s.busy = false) :
    s.hostWriteInLen v = { s with inLen := v } := by simp [State.hostWriteInLen, hb]

/-- Settles O55: the step is the idle write of IN, and the law of read after write. -/
theorem inputWriteWhenIdle : Obligations.InputWriteWhenIdle := by
  unfold Obligations.InputWriteWhenIdle
  intro s rest a v hh hb
  have hb' : (s.popHost rest).busy = false := by rw [State.popHost_busy, hb]
  refine ⟨?_, fun b => Memory.read_write s.inMem a b v⟩
  rw [step_host s _ rest hh, hostStep, State.hostWriteIn_idle _ a v hb', State.popHost_inMem]

/-- Settles O34, one register after the other. -/
theorem configurationWritesWhenIdle : Obligations.ConfigurationWritesWhenIdle := by
  unfold Obligations.ConfigurationWritesWhenIdle
  intro s rest hb
  have hb' : (s.popHost rest).busy = false := by rw [State.popHost_busy, hb]
  refine ⟨fun v hh => ?_, fun v hh => ?_, fun v hh => ?_, fun v hh => ?_⟩
  · rw [step_host s _ rest hh, hostStep, State.hostWriteFormat_idle _ v hb']
  · rw [step_host s _ rest hh, hostStep, State.hostWriteWidth_idle _ v hb']
  · rw [step_host s _ rest hh, hostStep, State.hostWriteHeight_idle _ v hb']
  · rw [step_host s _ rest hh, hostStep, State.hostWriteInLen_idle _ v hb']

/-! ## Reads of STATUS and CTRL -/

/-- What a read of STATUS returns, by its three fields (R19). -/
theorem State.readReg_status_toNat (s : State) :
    (s.readReg .status).toNat = s.busy.toNat + 2 * s.done.toNat + 4 * s.err.toNat := by
  rw [State.readReg, BitVec.toNat_setWidth_of_le (by decide), s.status_eq, statusWord_toNat]

/-- Settles O35: the step is the read of that register, which changes `rdata` alone. -/
theorem statusAndCtrlReads : Obligations.StatusAndCtrlReads := by
  unfold Obligations.StatusAndCtrlReads
  intro s rest
  refine ⟨fun hh => ⟨(s.popHost rest).hostReadReg .status, ?_, rfl, ?_⟩, fun hh => ?_⟩
  · rw [step_host s _ rest hh, hostStep]
  · rw [State.hostReadReg_rdata, State.readReg_status_toNat, State.popHost_busy, State.popHost_done, State.popHost_err]
  · rw [step_host s _ rest hh, hostStep, State.hostReadReg, State.readReg]

/-! ## Reset -/

/-- A START straight after reset is the check step with the reserved code 0 (R26, R136). -/
theorem step_start_of_reset : step { State.reset with host := [.writeCtrl 1] } =
    .next { State.reset with status := 0b1010, freeCtr := 1 } := by
  rw [step_host _ (.writeCtrl 1) [] rfl, hostStep, writeCtrl, if_neg (by decide), checkStep_reserved _ (by decide)]
  rfl

/-- A reset of an idle core leaves IN and OUT, and the core idle (R155). -/
theorem step_reset_idle (s : State) (rest : List HostOp) (hh : s.host = .reset :: rest) (hb : s.busy = false) :
    ∃ t, step s = .next t ∧ t.inMem = s.inMem ∧ t.outMem = s.outMem ∧ t.busy = false := by
  have hb' : (s.popHost rest).busy = false := by rw [State.popHost_busy, hb]
  refine ⟨(s.popHost rest).hostReset, ?_, ?_, ?_, State.hostReset_busy _⟩
  · rw [step_host s _ rest hh, hostStep]
  · rw [State.hostReset_inMem, State.popHost_inMem]
  · rw [State.hostReset_outMem_idle _ hb', State.popHost_outMem]

/-- Settles O37: the reset values by evaluation, the two steps by their own lemmas. -/
theorem resetValues : Obligations.ResetValues := by
  unfold Obligations.ResetValues
  exact ⟨rfl, rfl, rfl, rfl, rfl, rfl, rfl, rfl, rfl, rfl, rfl, rfl, step_start_of_reset, step_reset_idle⟩

/-- Settles O46: the memories are empty and no command runs. -/
theorem invariantAtReset : Obligations.InvariantAtReset := by
  unfold Obligations.InvariantAtReset
  have hidle : State.reset.busy = false := rfl
  refine ⟨⟨⟨Memory.nil_wf, Memory.nil_wf, Memory.nil_wf⟩, State.reset_statusOk, fun hb => ?_⟩, fun f hrun => ?_⟩
  · exact absurd hb (by simp [hidle])
  · rw [State.running_idle _ hidle] at hrun
    exact absurd hrun (Option.some_ne_none f).symm

end Sys2Proof.Machine
end

section
/-! Proofs: the memories of a command. Where texels are stored, what an accepted START hands over, and what a command that the
host leaves alone writes: the state after `n` block steps is followed through `State.afterBlocks`, its position by
`State.AtBlock` and its pixels by `State.afterBlocks_pixel`. -/
namespace Sys2Proof.Machine

/-! ## Offsets of OUT -/

/-- Settles O50: the last channel of a stored texel is a byte of the image. -/
theorem texelStoresInRange : Obligations.TexelStoresInRange := by
  unfold Obligations.TexelStoresInRange
  intro s f n a h
  obtain ⟨hx, hy, rfl⟩ := s.texelAddr_some f n a h
  have hpos := f.chan_pos
  have hlast := s.pixelByte_lt f _ _ (f.chan - 1) hx hy (Nat.sub_one_lt_of_lt hpos)
  rw [State.pixelByte, State.outSize] at hlast
  exact ⟨by omega, Nat.dvd_mul_left _ _⟩

/-- Every byte of the image is a channel of one of its pixels (R33, R37). -/
theorem State.exists_pixelByte_of_lt_outSize (s : State) (f : Format) (o : Nat) (h : o < s.outSize f) :
    ∃ x y k, x < s.width.toNat ∧ y < s.height.toNat ∧ k < f.chan ∧ o = s.pixelByte f x y k := by
  have hp : o / f.chan < s.width.toNat * s.height.toNat := Nat.div_lt_of_lt_mul (by rwa [mul_comm])
  refine ⟨o / f.chan % s.width.toNat, o / f.chan / s.width.toNat, o % f.chan, Nat.mod_lt _ ?_, Nat.div_lt_of_lt_mul hp,
    Nat.mod_lt _ f.chan_pos, ?_⟩
  · exact Nat.pos_of_mul_pos_right (Nat.zero_lt_of_lt hp)
  · rw [State.pixelByte, Nat.div_add_mod', Nat.div_add_mod']

theorem State.pixelByte_congr {s t : State} (hw : t.width = s.width) (f : Format) (x y k : Nat) :
    t.pixelByte f x y k = s.pixelByte f x y k := by rw [State.pixelByte, hw, State.pixelByte]

theorem State.blockOf_congr {s t : State} (hw : t.width = s.width) (x y : Nat) : t.blockOf x y = s.blockOf x y := by
  rw [State.blockOf, State.blocksWide, hw, State.blockOf, State.blocksWide]

/-! ## IN as an untouched command sees it -/

/-- Where the host has rewritten no byte of IN, every use of a byte sees the byte IN holds (R45; log 8). -/
theorem State.seenByte_untouched (s : State) (h : s.inLog = []) (use : FreeUse) (a : Nat) :
    s.seenByte use a = s.inMem.read a := by
  rw [State.seenByte, h, logged_nil, pick_nil]

/-- Settles O56: a check step that leaves the core busy has accepted the command, which empties the log of IN. -/
theorem startHandsOverInput : Obligations.StartHandsOverInput := by
  unfold Obligations.StartHandsOverInput
  intro s t rest hh hb h ht
  rw [step_host s _ rest hh, hostStep] at h
  rcases writeCtrl_cases _ _ _ h with ⟨hv | hb', -⟩ | ⟨-, -, hcheck⟩
  · exact absurd hv (by decide)
  · rw [State.popHost_busy, hb] at hb'
    exact absurd hb' Bool.false_ne_true
  rcases checkStep_cases _ _ hcheck with ⟨e, rfl⟩ | ⟨f, -, -, -, -, rfl⟩
  · rw [State.raiseError_busy] at ht
    exact absurd ht Bool.false_ne_true
  · refine ⟨by simp, fun use a => ?_, by simp, by simp, by simp, by simp⟩
    rw [State.seenByte_untouched _ (State.accept_inLog _)]
    simp

/-- The bytes of block `n` of the input, as IN holds them (R50, R123). -/
def State.inputBlock (s : State) (f : Format) (n : Nat) : List Byte :=
  (List.range f.size).map fun i => s.inMem.read (n * f.size + i)

theorem State.fetchBytes_untouched (s : State) (f : Format) (n : Nat) (h : s.inLog = []) :
    s.fetchBytes (n * f.size) f.size = s.inputBlock f n := by
  simp only [State.fetchBytes, State.inputBlock, State.fetchByte, s.seenByte_untouched h]

/-- The blocks of a command lie within the first `required` bytes of IN (R36, R120). -/
theorem State.inputBlock_congr (s s' : State) (f : Format) (n : Nat) (hn : n < s.nblocks)
    (h : ∀ a, a < s.required f → s.inMem.read a = s'.inMem.read a) : s.inputBlock f n = s'.inputBlock f n := by
  refine List.map_congr_left fun i hi => h _ ?_
  calc n * f.size + i < n * f.size + f.size := Nat.add_lt_add_left (List.mem_range.1 hi) _
    _ = (n + 1) * f.size := by ring
    _ ≤ s.required f := Nat.mul_le_mul_right _ hn

/-! ## The block a command is at -/

/-- The number of the current block, in row-major order (R122). -/
def State.blockNumber (s : State) : Nat := s.byi.toNat * s.blocksWide + s.bxi.toNat

/-- The advance keeps STATUS while blocks are left, and ends the command at the last one (R125). -/
theorem State.CommandOk.advance_status {s : State} {f : Format} (h : s.CommandOk f) :
    (s.advance f).status = if s.blockNumber + 1 < s.nblocks then s.status else statusWord false true s.err := by
  have hcol := h.column
  have hrow := h.row
  have hnb : s.nblocks = s.blocksHigh * s.blocksWide := mul_comm _ _
  rw [State.blockNumber, hnb]
  rcases s.advance_cases f with ⟨hx, -, -, e⟩ | ⟨hx, hy, -, -, e⟩ | ⟨hx, hy, -, -, e⟩
  · have hle : (s.byi.toNat + 1) * s.blocksWide ≤ s.blocksHigh * s.blocksWide := Nat.mul_le_mul_right _ hrow
    rw [e, if_pos (by rw [Nat.succ_mul] at hle; omega)]
  · have hlt : (s.byi.toNat + 1) * s.blocksWide < s.blocksHigh * s.blocksWide :=
      Nat.mul_lt_mul_of_pos_right hy (by omega)
    rw [e, if_pos (by rw [Nat.succ_mul] at hlt; omega)]
  · have hlast : s.blocksHigh = s.byi.toNat + 1 := by omega
    rw [e, if_neg (by rw [hlast, Nat.succ_mul]; omega)]

/-- The next block after the advance is the next in row-major order (R122). -/
theorem State.CommandOk.advance_blockNumber {s : State} {f : Format} (h : s.CommandOk f)
    (h' : (s.advance f).CommandOk f) : (s.advance f).blockNumber = s.blockNumber + 1 := by
  refine Nat.eq_of_mul_eq_mul_right f.size_pos ?_
  calc (s.advance f).blockNumber * f.size = (s.advance f).cur.toNat := h'.cursor.symm
    _ = s.cur.toNat + f.size := h.advance_cur_toNat
    _ = (s.blockNumber + 1) * f.size := by rw [h.cursor, State.blockNumber]; ring

/-! ## One block step -/

/-- The block step of a running command before its advance: the block is fetched, decoded and stored (R122). -/
def State.storedBlock (s : State) (f : Format) : State :=
  (s.fetchBlock.loadPatch (decPatch f (s.fetchBytes s.cur.toNat f.size))).storePatch f

/-- The block step of a running command of format `f` (R122), with what the host did settled (R159, R160). -/
def State.blockStep (s : State) (f : Format) : State :=
  ((s.storedBlock f).advance f).settleBlock f (s.cur.toNat / f.size)

@[simp] theorem State.blockStep_width (s : State) (f : Format) : (s.blockStep f).width = s.width := by
  simp [State.blockStep, State.storedBlock]

@[simp] theorem State.blockStep_height (s : State) (f : Format) : (s.blockStep f).height = s.height := by
  simp [State.blockStep, State.storedBlock]

@[simp] theorem State.blockStep_inMem (s : State) (f : Format) : (s.blockStep f).inMem = s.inMem := by
  simp [State.blockStep, State.storedBlock]

@[simp] theorem State.blockStep_host (s : State) (f : Format) : (s.blockStep f).host = s.host := by
  simp [State.blockStep, State.storedBlock]

@[simp] theorem State.blockStep_inLog (s : State) (f : Format) : (s.blockStep f).inLog = s.inLog := by
  simp [State.blockStep, State.storedBlock]

@[simp] theorem State.blockStep_outLog (s : State) (f : Format) : (s.blockStep f).outLog = s.outLog := by
  simp [State.blockStep, State.storedBlock]

/-- The block step of a running command is the machine's step when no host access is pending. -/
theorem step_running (s : State) (f : Format) (hh : s.host = []) (hb : s.busy = true) (h : s.CommandOk f) :
    step s = .next (s.blockStep f) := by
  rw [step_noHost s hh, coreStep_running s f hb h.legal, State.blockStep, State.storedBlock, State.finishBlock]

@[simp] theorem State.storedBlock_blockNumber (s : State) (f : Format) : (s.storedBlock f).blockNumber = s.blockNumber := by
  simp [State.storedBlock, State.blockNumber]

theorem State.CommandOk.storedBlock {s : State} {f : Format} (h : s.CommandOk f) : (s.storedBlock f).CommandOk f := by
  apply h.congr <;> simp [State.storedBlock]

/-- A block step keeps STATUS while blocks are left, and ends the command at the last one (R125). -/
theorem State.CommandOk.blockStep_status {s : State} {f : Format} (h : s.CommandOk f) :
    (s.blockStep f).status = if s.blockNumber + 1 < s.nblocks then s.status else statusWord false true s.err := by
  rw [State.blockStep, State.settleBlock_status, h.storedBlock.advance_status, State.storedBlock_blockNumber]
  simp [State.storedBlock]

/-- Where the host has written neither IN nor OUT, a block step leaves in OUT what its stores leave. -/
theorem State.blockStep_outMem (s : State) (f : Format) (hin : s.inLog = []) (hout : s.outLog = []) :
    (s.blockStep f).outMem = (s.storedBlock f).outMem := by
  rw [State.blockStep, State.settleBlock_untouched _ f _ (by simp [State.storedBlock, hin])
    (by simp [State.storedBlock, hout]), State.advance_outMem]

/-! ## A running command at block `n` -/

/-- A running command of format `f` that is to take the step of block `n`, with no host access pending. -/
structure State.AtBlock (s : State) (f : Format) (n : Nat) : Prop where
  host : s.host = []
  busy : s.busy = true
  command : s.CommandOk f
  number : s.blockNumber = n

/-- An accepted command is at block 0 (R148). -/
theorem State.CommandOk.atBlock_zero {s : State} {f : Format} (h : s.CommandOk f) (hh : s.host = [])
    (hs : s.status = 0b0001) (hx : s.bxi = 0) (hy : s.byi = 0) : s.AtBlock f 0 :=
  ⟨hh, by rw [State.busy, hs]; rfl, h, by simp [State.blockNumber, hx, hy]⟩

/-- While blocks are left a block step takes the command to the next block (R122). -/
theorem State.AtBlock.next {s : State} {f : Format} {n : Nat} (h : s.AtBlock f n) (hn : n + 1 < s.nblocks) :
    (s.blockStep f).AtBlock f (n + 1) := by
  obtain ⟨hhost, hbusy, hcmd, rfl⟩ := h
  have hst : (s.blockStep f).status = s.status := by rw [hcmd.blockStep_status, if_pos hn]
  have hb : (s.blockStep f).busy = true := (State.busy_congr hst).trans hbusy
  have hadv : ((s.storedBlock f).advance f).CommandOk f :=
    hcmd.storedBlock.advance (by simpa [State.blockStep] using hb)
  refine ⟨by rw [State.blockStep_host, hhost], hb, ?_, ?_⟩
  · apply hadv.congr <;> simp [State.blockStep]
  · rw [← s.storedBlock_blockNumber f, ← hcmd.storedBlock.advance_blockNumber hadv]
    simp [State.blockStep, State.blockNumber]

/-- The pixels of block `n` are those at the counters (R127). -/
theorem State.AtBlock.blockOf_eq_iff {s : State} {f : Format} {n x y : Nat} (h : s.AtBlock f n) (hx : x < s.width.toNat) :
    s.blockOf x y = n ↔ x / 4 = s.bxi.toNat ∧ y / 4 = s.byi.toNat := by
  have hlt : x / 4 < s.blocksWide := by simp only [State.blocksWide, ceil4]; omega
  rw [← h.number, State.blockOf, State.blockNumber]
  constructor
  · exact pixel_unique _ _ _ _ _ hlt h.command.column
  · rintro ⟨ex, ey⟩
    rw [ex, ey]

/-- The step of block `n` stores the decode of that block's bytes in IN at each of its pixels (R121, R124). -/
theorem State.AtBlock.blockStep_pixel {s : State} {f : Format} {n x y k : Nat} (h : s.AtBlock f n) (hin : s.inLog = [])
    (hout : s.outLog = []) (hx : x < s.width.toNat) (hy : y < s.height.toNat) (hk : k < f.chan) (hb : s.blockOf x y = n) :
    (s.blockStep f).outMem.read (s.pixelByte f x y k) = decodedByte f (s.inputBlock f n) x y k := by
  obtain ⟨ex, ey⟩ := (h.blockOf_eq_iff hx).1 hb
  have hfetch : s.fetchBytes s.cur.toNat f.size = s.inputBlock f n := by
    rw [← s.fetchBytes_untouched f n hin, h.command.cursor, ← h.number, State.blockNumber]
  have hst := s.fetchBlock.storePatch_pixel f (decPatch f (s.inputBlock f n))
    (fun t ht => decPatch_getD_length f _ t ht) x y k hx hy hk ex ey
  rw [s.blockStep_outMem f hin hout, State.storedBlock, hfetch]
  exact hst

/-- The step of block `n` leaves every pixel of another block (R124, R127). -/
theorem State.AtBlock.blockStep_elsewhere {s : State} {f : Format} {n x y k : Nat} (h : s.AtBlock f n)
    (hin : s.inLog = []) (hout : s.outLog = []) (hx : x < s.width.toNat) (hk : k < f.chan) (hb : s.blockOf x y ≠ n) :
    (s.blockStep f).outMem.read (s.pixelByte f x y k) = s.outMem.read (s.pixelByte f x y k) := by
  have hst := s.fetchBlock.storePatch_elsewhere f (decPatch f (s.fetchBytes s.cur.toNat f.size)) (s.pixelByte f x y k)
    fun x' y' k' hx' _ hk' ex ey e => by
      obtain ⟨rfl, rfl, -⟩ := s.pixelByte_inj f x y k x' y' k' hx hx' hk hk' e
      exact hb ((h.blockOf_eq_iff hx).2 ⟨ex, ey⟩)
  rw [s.blockStep_outMem f hin hout]
  exact hst

/-! ## The whole command -/

/-- The state after `n` block steps of a command of format `f`. -/
def State.afterBlocks (s : State) (f : Format) : Nat → State
  | 0 => s
  | n + 1 => (s.afterBlocks f n).blockStep f

/-- Block steps leave the size of the image, IN and the logs (R129). -/
theorem State.afterBlocks_frame (s : State) (f : Format) (n : Nat) :
    (s.afterBlocks f n).width = s.width ∧ (s.afterBlocks f n).height = s.height ∧
    (s.afterBlocks f n).inMem = s.inMem ∧ (s.afterBlocks f n).inLog = s.inLog ∧
    (s.afterBlocks f n).outLog = s.outLog := by
  induction n with
  | zero => exact ⟨rfl, rfl, rfl, rfl, rfl⟩
  | succ n ih => simpa [State.afterBlocks] using ih

theorem State.afterBlocks_nblocks (s : State) (f : Format) (n : Nat) : (s.afterBlocks f n).nblocks = s.nblocks := by
  obtain ⟨hw, hh, -⟩ := s.afterBlocks_frame f n
  simp only [State.nblocks, State.blocksWide, State.blocksHigh, hw, hh]

/-- After `n` block steps the command is at block `n` (R122, R125). -/
theorem State.AtBlock.afterBlocks {s : State} {f : Format} (h : s.AtBlock f 0) (n : Nat) (hn : n < s.nblocks) :
    (s.afterBlocks f n).AtBlock f n := by
  induction n with
  | zero => exact h
  | succ n ih => exact (ih (by omega)).next (by rwa [s.afterBlocks_nblocks f n])

/-- The run of a command is its block steps (R122). -/
theorem State.AtBlock.run {s : State} {f : Format} (h : s.AtBlock f 0) (n : Nat) (hn : n ≤ s.nblocks) :
    Host.Core.run Sys2Proof.core n s = .next (s.afterBlocks f n) := by
  induction n with
  | zero => exact run_zero s
  | succ n ih =>
    obtain ⟨hhost, hbusy, hcmd, -⟩ := h.afterBlocks n hn
    exact (run_succ n s _ (ih (by omega))).trans (step_running _ f hhost hbusy hcmd)

/-- After `n` block steps every pixel of the first `n` blocks holds the decode of its block (R121). -/
theorem State.AtBlock.afterBlocks_pixel {s : State} {f : Format} {x y k : Nat} (h : s.AtBlock f 0) (hin : s.inLog = [])
    (hout : s.outLog = []) (hx : x < s.width.toNat) (hy : y < s.height.toNat) (hk : k < f.chan) (n : Nat)
    (hn : n ≤ s.nblocks) (hb : s.blockOf x y < n) :
    (s.afterBlocks f n).outMem.read (s.pixelByte f x y k) = decodedByte f (s.inputBlock f (s.blockOf x y)) x y k := by
  induction n with
  | zero => exact absurd hb (Nat.not_lt_zero _)
  | succ n ih =>
    have hat := h.afterBlocks n hn
    obtain ⟨hw, hh, hm, hil, hol⟩ := s.afterBlocks_frame f n
    have hpix := State.pixelByte_congr hw f x y k
    have hblk := State.blockOf_congr hw x y
    rw [← hw] at hx
    rw [← hh] at hy
    rw [State.afterBlocks, ← hpix]
    rcases Nat.lt_succ_iff_lt_or_eq.1 hb with hlt | heq
    · rw [hat.blockStep_elsewhere (hil.trans hin) (hol.trans hout) hx hk (by omega), hpix]
      exact ih (by omega) hlt
    · rw [hat.blockStep_pixel (hil.trans hin) (hol.trans hout) hx hy hk (hblk.trans heq), heq, State.inputBlock, hm,
        State.inputBlock]

/-- A command that the host leaves alone runs for `nblocks` steps, and every pixel of the image then holds the decode of its
block (R121). -/
theorem State.AtBlock.run_pixel {s : State} {f : Format} (h : s.AtBlock f 0) (hin : s.inLog = []) (hout : s.outLog = []) :
    ∃ t : State, Host.Core.run Sys2Proof.core s.nblocks s = .next t ∧
      ∀ x y k, x < s.width.toNat → y < s.height.toNat → k < f.chan →
        t.outMem.read (s.pixelByte f x y k) = decodedByte f (s.inputBlock f (s.blockOf x y)) x y k :=
  ⟨_, h.run _ le_rfl, fun x y _ hx hy hk => h.afterBlocks_pixel hin hout hx hy hk _ le_rfl (s.blockOf_lt x y hx hy)⟩

/-- Settles O54: each byte of the image is the decode of its pixel's block, which lies within the first `required` bytes. -/
theorem outputDependsOnInputOnly : Obligations.OutputDependsOnInputOnly := by
  unfold Obligations.OutputDependsOnInputOnly
  intro s s' f hh hh' hs hs' hc hc' _ hx0 hy0 _ hx0' hy0' hin hout hin' hout' hw hht hagree
  obtain ⟨t, hrun, ht⟩ := (hc.atBlock_zero hh hs hx0 hy0).run_pixel hin hout
  obtain ⟨t', hrun', ht'⟩ := (hc'.atBlock_zero hh' hs' hx0' hy0').run_pixel hin' hout'
  refine ⟨t, t', hrun, hrun', fun o ho => ?_⟩
  obtain ⟨x, y, k, hx, hy, hk, rfl⟩ := s.exists_pixelByte_of_lt_outSize f o ho
  calc t.outMem.read (s.pixelByte f x y k) = decodedByte f (s.inputBlock f (s.blockOf x y)) x y k := ht x y k hx hy hk
    _ = decodedByte f (s'.inputBlock f (s'.blockOf x y)) x y k := by
      rw [s.inputBlock_congr s' f _ (s.blockOf_lt x y hx hy) hagree, State.blockOf_congr hw]
    _ = t'.outMem.read (s'.pixelByte f x y k) := (ht' x y k (hw ▸ hx) (hht ▸ hy) hk).symm
    _ = t'.outMem.read (s.pixelByte f x y k) := by rw [State.pixelByte_congr hw]

end Sys2Proof.Machine
end

section
/-! Proofs: the encoding. The decoder on a whole block and on a reserved code, said once; then the two round trips of R62
and R59, the streams it rejects, the opcode map and the spec's worked words. -/
namespace Sys2Proof.Machine

/-! ## The two kinds of code -/

/-- A legal code reads the block of its format off the front of the stream. -/
theorem decode_block_append (f : Format) (bs rest : List Byte) (h : bs.length = f.size) :
    decode f.code (bs ++ rest) = .ok (decodeBlock f bs, rest) := by
  have hlong : ¬ (bs ++ rest).length < f.size := by rw [List.length_append]; omega
  rw [decode_legal _ f _ (formatOf_code f), if_neg hlong, List.take_left' h, List.drop_left' h]

/-- A reserved code reads nothing and answers its own instruction, which has no block (R58). -/
theorem decode_reserved (code : BitVec 3) (stream : List Byte) (h : formatOf code = none) :
    ∃ i : Instr, decode code stream = .ok (i, stream) ∧ i.wf = true ∧ i.code = code ∧ i.block = [] := by
  have hcode : code = 0 ∨ code = 6 ∨ code = 7 := by revert code; decide
  obtain rfl | rfl | rfl := hcode
  · exact ⟨.rsvd0, rfl, rfl, rfl, rfl⟩
  · exact ⟨.rsvd6, rfl, rfl, rfl, rfl⟩
  · exact ⟨.rsvd7, rfl, rfl, rfl, rfl⟩

/-! ## One block: fields to bytes and back -/

theorem decodeBlock_code (f : Format) (bs : List Byte) : (decodeBlock f bs).code = f.code := by cases f <;> rfl

theorem decodeBlock_wf (f : Format) (bs : List Byte) : (decodeBlock f bs).wf = true := by
  cases f <;> simp [decodeBlock, Instr.wf, decodeC64_wf, decodeX64_wf, decodeA64_wf]

/-- A block of one half is its own first half. -/
theorem take_half {bs : List Byte} (h : bs.length = 8) : bs.take 8 = bs := List.take_of_length_le h.le

/-- Each half of a 16-byte block is taken from its own place (R55). -/
theorem take_halves {lo hi : List Byte} (hlo : lo.length = 8) (hhi : hi.length = 8) :
    (lo ++ hi).take 8 = lo ∧ ((lo ++ hi).drop 8).take 8 = hi :=
  ⟨List.take_left' hlo, by rw [List.drop_left' hlo, take_half hhi]⟩

theorem exists_halves {bs : List Byte} (h : bs.length = 16) :
    ∃ lo hi : List Byte, lo.length = 8 ∧ hi.length = 8 ∧ bs = lo ++ hi :=
  ⟨bs.take 8, bs.drop 8, by simp [h], by simp [h], (List.take_append_drop 8 bs).symm⟩

theorem decodeBlock_bc1 {bs : List Byte} (h : bs.length = 8) : decodeBlock .bc1 bs = .decBc1 (decodeC64 bs) := by
  rw [decodeBlock, take_half h]

theorem decodeBlock_bc2 {lo hi : List Byte} (hlo : lo.length = 8) (hhi : hi.length = 8) :
    decodeBlock .bc2 (lo ++ hi) = .decBc2 (decodeX64 lo) (decodeC64 hi) := by
  rw [decodeBlock, (take_halves hlo hhi).1, (take_halves hlo hhi).2]

theorem decodeBlock_bc3 {lo hi : List Byte} (hlo : lo.length = 8) (hhi : hi.length = 8) :
    decodeBlock .bc3 (lo ++ hi) = .decBc3 (decodeA64 lo) (decodeC64 hi) := by
  rw [decodeBlock, (take_halves hlo hhi).1, (take_halves hlo hhi).2]

theorem decodeBlock_bc4 {bs : List Byte} (h : bs.length = 8) : decodeBlock .bc4 bs = .decBc4 (decodeA64 bs) := by
  rw [decodeBlock, take_half h]

theorem decodeBlock_bc5 {lo hi : List Byte} (hlo : lo.length = 8) (hhi : hi.length = 8) :
    decodeBlock .bc5 (lo ++ hi) = .decBc5 (decodeA64 lo) (decodeA64 hi) := by
  rw [decodeBlock, (take_halves hlo hhi).1, (take_halves hlo hhi).2]

/-- The fields of a block pack to the block they were cut from (R59): half by half, by the round trips of the sub-blocks. -/
theorem block_decodeBlock (f : Format) (bs : List Byte) (h : bs.length = f.size) : (decodeBlock f bs).block = bs := by
  cases f with
  | bc1 => rw [decodeBlock_bc1 h, Instr.block, encodeC64_decodeC64 _ h]
  | bc2 =>
    obtain ⟨lo, hi, hlo, hhi, rfl⟩ := exists_halves h
    rw [decodeBlock_bc2 hlo hhi, Instr.block, encodeX64_decodeX64 _ hlo, encodeC64_decodeC64 _ hhi]
  | bc3 =>
    obtain ⟨lo, hi, hlo, hhi, rfl⟩ := exists_halves h
    rw [decodeBlock_bc3 hlo hhi, Instr.block, encodeA64_decodeA64 _ hlo, encodeC64_decodeC64 _ hhi]
  | bc4 => rw [decodeBlock_bc4 h, Instr.block, encodeA64_decodeA64 _ h]
  | bc5 =>
    obtain ⟨lo, hi, hlo, hhi, rfl⟩ := exists_halves h
    rw [decodeBlock_bc5 hlo hhi, Instr.block, encodeA64_decodeA64 _ hlo, encodeA64_decodeA64 _ hhi]

/-! ## The round trips -/

/-- The family `BlockLength` for every instruction at once. -/
theorem block_length (i : Instr) : i.block.length = codeBytes i.code := by
  cases i with
  | rsvd0 => exact Laws.BlockLength.rsvd0
  | decBc1 col => exact Laws.BlockLength.decBc1 col
  | decBc2 alpha col => exact Laws.BlockLength.decBc2 alpha col
  | decBc3 alpha col => exact Laws.BlockLength.decBc3 alpha col
  | decBc4 chan => exact Laws.BlockLength.decBc4 chan
  | decBc5 chan0 chan1 => exact Laws.BlockLength.decBc5 chan0 chan1
  | rsvd6 => exact Laws.BlockLength.rsvd6
  | rsvd7 => exact Laws.BlockLength.rsvd7

/-- The round trip of a decode instruction comes down to the fields of its own block. -/
theorem decode_block {i : Instr} {f : Format} (rest : List Byte) (hcode : i.code = f.code)
    (hfields : decodeBlock f i.block = i) : decode i.code (i.block ++ rest) = .ok (i, rest) := by
  have hlen : i.block.length = f.size := by rw [block_length, hcode, codeBytes_of_formatOf _ f (formatOf_code f)]
  rw [hcode, decode_block_append f i.block rest hlen, hfields]

/-- Settles O2: a reserved row reads nothing; a decode row reads its block, and each half gives its sub-block back. -/
theorem decodeOfEncode : Obligations.DecodeOfEncode := by
  unfold Obligations.DecodeOfEncode
  intro i rest hwf
  cases i with
  | rsvd0 => rfl
  | decBc1 col =>
    refine decode_block (f := .bc1) rest rfl ?_
    rw [Instr.block, decodeBlock_bc1 (encodeC64_length _), decodeC64_encodeC64 _ hwf]
  | decBc2 alpha col =>
    obtain ⟨hlo, hhi⟩ : alpha.wf = true ∧ col.wf = true := Bool.and_eq_true_iff.1 hwf
    refine decode_block (f := .bc2) rest rfl ?_
    rw [Instr.block, decodeBlock_bc2 (encodeX64_length _) (encodeC64_length _), decodeX64_encodeX64 _ hlo,
      decodeC64_encodeC64 _ hhi]
  | decBc3 alpha col =>
    obtain ⟨hlo, hhi⟩ : alpha.wf = true ∧ col.wf = true := Bool.and_eq_true_iff.1 hwf
    refine decode_block (f := .bc3) rest rfl ?_
    rw [Instr.block, decodeBlock_bc3 (encodeA64_length _) (encodeC64_length _), decodeA64_encodeA64 _ hlo,
      decodeC64_encodeC64 _ hhi]
  | decBc4 chan =>
    refine decode_block (f := .bc4) rest rfl ?_
    rw [Instr.block, decodeBlock_bc4 (encodeA64_length _), decodeA64_encodeA64 _ hwf]
  | decBc5 chan0 chan1 =>
    obtain ⟨hlo, hhi⟩ : chan0.wf = true ∧ chan1.wf = true := Bool.and_eq_true_iff.1 hwf
    refine decode_block (f := .bc5) rest rfl ?_
    rw [Instr.block, decodeBlock_bc5 (encodeA64_length _) (encodeA64_length _), decodeA64_encodeA64 _ hlo,
      decodeA64_encodeA64 _ hhi]
  | rsvd6 => rfl
  | rsvd7 => rfl

/-- Settles O3: a legal code's block packs back from its fields, and a reserved code reads nothing. -/
theorem encodeOfDecode : Obligations.EncodeOfDecode := by
  unfold Obligations.EncodeOfDecode
  intro code stream rest i h
  cases hf : formatOf code with
  | none =>
    obtain ⟨j, hj, hwf, hcode, hblock⟩ := decode_reserved code stream hf
    obtain ⟨rfl, rfl⟩ : j = i ∧ stream = rest := by simpa [hj] using h
    exact ⟨hwf, hcode, by rw [hblock, List.nil_append]⟩
  | some f =>
    rw [decode_legal _ f _ hf] at h
    split at h
    next => cases h
    next hlong =>
      cases h
      have hlen : (stream.take f.size).length = f.size := by rw [List.length_take]; omega
      refine ⟨decodeBlock_wf f _, ?_, ?_⟩
      · rw [decodeBlock_code, code_of_formatOf _ _ hf]
      · rw [block_decodeBlock f _ hlen, List.take_append_drop]

/-! ## Rejected streams, the opcode map and the spec's words -/

/-- Settles O4: a reserved code never fails, and a legal one fails only by the length of its stream. -/
theorem decodeRejectsOnlyShortStreams : Obligations.DecodeRejectsOnlyShortStreams := by
  unfold Obligations.DecodeRejectsOnlyShortStreams
  intro code stream e
  cases hf : formatOf code with
  | none =>
    obtain ⟨i, hi, -⟩ := decode_reserved code stream hf
    simp [hi]
  | some f =>
    rw [decode_legal _ f _ hf]
    by_cases hshort : stream.length < f.size
    · simp [hshort, eq_comm]
    · simp [hshort]

/-- Settles O1: each code's row is found in the table, and the rows of the eight codes are counted. -/
theorem opcodeMapIsTotal : Obligations.OpcodeMapIsTotal := by
  unfold Obligations.OpcodeMapIsTotal
  exact ⟨rfl, rfl, rfl, rfl, rfl, rfl, rfl, rfl, by decide⟩

/-- Settles O5: the decoder evaluates each word to the instruction it stands for. -/
theorem specWordsDecode : Obligations.SpecWordsDecode := by
  unfold Obligations.SpecWordsDecode
  exact ⟨by decide, by decide, by decide, rfl⟩

end Sys2Proof.Machine
end

section
/-! The bit-field unpacker: a bit of a block's value is a bit of one of its bytes, and what follows for `FIELD`. -/
namespace Sys2Proof

/-- A block's integer is its bytes packed as 8-bit fields, the first lowest. -/
theorem blockValue_eq_packFields (bs : List Byte) : blockValue bs = packFields bs := by
  induction bs with
  | nil => rfl
  | cons b bs ih => simp [blockValue, packFields, ih]

/-- Bit `k` of the block is bit `k mod 8` of byte `k div 8`; past the last byte both sides are 0. -/
theorem testBit_blockValue (bs : List Byte) (k : Nat) :
    (blockValue bs).testBit k = (bs.getD (k / 8) 0).getLsbD (k % 8) := by
  have hbit : k % 8 < 8 := Nat.mod_lt k (by decide)
  calc (blockValue bs).testBit k
      = (blockValue bs / 2 ^ (8 * (k / 8)) % 2 ^ 8).testBit (k % 8) := by
        rw [Nat.testBit_mod_two_pow, Nat.testBit_div_two_pow, Nat.mod_add_div, decide_eq_true hbit, Bool.true_and]
    _ = (bs.getD (k / 8) 0).getLsbD (k % 8) := by
        rw [blockValue_eq_packFields, packFields_get, BitVec.testBit_toNat]

/-- Inside its width a field shows the block's bits from `off` on. -/
theorem field_getLsbD (bs : List Byte) (off w j : Nat) (hj : j < w) :
    (field bs off w).getLsbD j = (blockValue bs).testBit (off + j) := by
  rw [← BitVec.testBit_toNat, field_toNat, Nat.testBit_mod_two_pow, Nat.testBit_div_two_pow, decide_eq_true hj,
    Bool.true_and, Nat.add_comm j off]

/-- Settles O6: the slice is `field_toNat`, its bits are the block's bits, and each of these is a bit of one byte. -/
theorem fieldReadsContiguousBits : Obligations.FieldReadsContiguousBits := by
  unfold Obligations.FieldReadsContiguousBits
  refine ⟨fun bs off w => ⟨?_, fun j hj => ?_⟩, by decide, by decide⟩
  · rw [field_toNat, Nat.shiftRight_eq_div_pow]
  · rw [field_getLsbD bs off w j hj, testBit_blockValue]

/-- Settles O7: a remainder by `2 ^ w1 * 2 ^ w2` is its low part plus its high part scaled, and the high part is the field
that begins `w1` bits later. -/
theorem fieldSplitsIntoParts : Obligations.FieldSplitsIntoParts := by
  unfold Obligations.FieldSplitsIntoParts
  intro bs off w1 w2
  rw [field_toNat, field_toNat, field_toNat, pow_add, Nat.mod_mul, pow_add, ← Nat.div_div_eq_div_mul,
    Nat.shiftLeft_eq, Nat.mul_comm]

end Sys2Proof
end

section
/-! Proofs: endpoint colours. The bounds and corner cases of `INTERP`, bit replication said once for every width, and the split
of an endpoint word. -/
namespace Sys2Proof.Machine

/-! ## The shared interpolation -/

/-- R81: `den div 2` is less than `den`, so rounding does not leave the range of the endpoints. -/
theorem interp_between (c0 c1 : Byte) (num den : Nat) (h : num ≤ den) (hd : 0 < den) :
    min c0.toNat c1.toNat ≤ (interp c0 c1 num den).toNat ∧ (interp c0 c1 num den).toNat ≤ max c0.toNat c1.toNat := by
  obtain ⟨hlow, hhigh⟩ := interp_weights c0.toNat c1.toNat num den h
  have hhalf : den / 2 < den := Nat.div_lt_self hd Nat.one_lt_two
  rw [interp_toNat c0 c1 num den h hd]
  constructor
  · exact (Nat.le_div_iff_mul_le hd).2 (hlow.trans (Nat.le_add_right _ _))
  · rw [← Nat.lt_succ_iff, Nat.div_lt_iff_lt_mul hd, Nat.succ_mul]
    exact Nat.add_lt_add_of_le_of_lt hhigh hhalf

theorem interp_self (c : Byte) (num den : Nat) (h : num ≤ den) (hd : 0 < den) : interp c c num den = c := by
  obtain ⟨hlow, hhigh⟩ := interp_between c c num den h hd
  rw [min_self] at hlow
  rw [max_self] at hhigh
  exact BitVec.eq_of_toNat_eq (hhigh.antisymm hlow)

theorem interp_zero (c0 c1 : Byte) (den : Nat) (hd : 0 < den) : interp c0 c1 0 den = c0 := by
  have hhalf : den / 2 / den = 0 := Nat.div_eq_of_lt (Nat.div_lt_self hd Nat.one_lt_two)
  apply BitVec.eq_of_toNat_eq
  rw [interp_toNat c0 c1 0 den (Nat.zero_le den) hd, Nat.sub_zero, Nat.mul_zero, Nat.add_zero,
    Nat.mul_comm, Nat.mul_add_div hd, hhalf, Nat.add_zero]

/-- The exchange law of R78. -/
theorem interp_exchange (c0 c1 : Byte) (num den : Nat) (h : num ≤ den) :
    interp c0 c1 num den = interp c1 c0 (den - num) den := by
  rw [interp, interp, Nat.sub_sub_self h, Nat.add_comm (c0.toNat * _)]

theorem interp_den (c0 c1 : Byte) (den : Nat) (hd : 0 < den) : interp c0 c1 den den = c1 := by
  rw [interp_exchange c0 c1 den den le_rfl, Nat.sub_self, interp_zero c1 c0 den hd]

/-- Settles O10: the bounds give the case of equal endpoints, and the exchange law carries `num = 0` to `num = den`. -/
theorem interpStaysBetweenEndpoints : Obligations.InterpStaysBetweenEndpoints := by
  unfold Obligations.InterpStaysBetweenEndpoints
  intro c0 c1 num den h hd
  obtain ⟨hlow, hhigh⟩ := interp_between c0 c1 num den h hd
  exact ⟨interp_toNat c0 c1 num den h hd, hlow, hhigh, interp_self c0 num den h hd, interp_zero c0 c1 den hd,
    interp_den c0 c1 den hd, interp_exchange c0 c1 num den h⟩

/-! ## Bit replication -/

/-- A field moved up by the missing `k` bits loses none of them in a byte. -/
theorem replicate_toNat {w : Nat} (v : BitVec w) (k m : Nat) (hk : w + k = 8) :
    (v.setWidth 8 <<< k ||| v.setWidth 8 >>> m).toNat = (v.toNat <<< k ||| v.toNat >>> m) := by
  have hw : v.toNat < 2 ^ 8 := v.isLt.trans_le (Nat.pow_le_pow_right Nat.two_pos (hk ▸ Nat.le_add_right w k))
  have hshift : v.toNat <<< k < 2 ^ 8 := by
    rw [← hk, Nat.shiftLeft_eq, pow_add]
    exact Nat.mul_lt_mul_of_pos_right v.isLt (Nat.two_pow_pos k)
  rw [BitVec.toNat_or, BitVec.toNat_shiftLeft, BitVec.toNat_ushiftRight, BitVec.toNat_setWidth,
    Nat.mod_eq_of_lt hw, Nat.mod_eq_of_lt hshift]

/-- The replicated low bits lie below bit `k`, so shifting by `k` gives the field back (R82). -/
theorem replicate_shiftRight {w : Nat} (v : BitVec w) (k m : Nat) (hm : w ≤ m + k) :
    (v.toNat <<< k ||| v.toNat >>> m) >>> k = v.toNat := by
  have hlow : v.toNat >>> m >>> k = 0 := by
    rw [← Nat.shiftRight_add]
    exact Nat.shiftRight_eq_zero _ _ (v.isLt.trans_le (Nat.pow_le_pow_right Nat.two_pos hm))
  rw [Nat.shiftRight_or_distrib, Nat.shiftLeft_shiftRight, hlow, Nat.or_zero]

theorem exp5_toNat (v : BitVec 5) : (exp5 v).toNat = (v.toNat <<< 3 ||| v.toNat >>> 2) := replicate_toNat v 3 2 rfl

theorem exp6_toNat (v : BitVec 6) : (exp6 v).toNat = (v.toNat <<< 2 ||| v.toNat >>> 4) := replicate_toNat v 2 4 rfl

theorem exp4_toNat (v : BitVec 4) : (exp4 v).toNat = (v.toNat <<< 4 ||| v.toNat >>> 0) := replicate_toNat v 4 0 rfl

/-- The two copies have no bit in common, so their disjunction is a sum: `EXP4(v) = 17·v` (R95). -/
theorem exp4_eq_mul (v : BitVec 4) : (exp4 v).toNat = 17 * v.toNat := by
  rw [exp4_toNat, Nat.shiftRight_zero, ← Nat.shiftLeft_add_eq_or_of_lt v.isLt, Nat.shiftLeft_eq]
  omega

/-- Settles O8: the tables by evaluation, the formulas and the values read back from bit replication at each width. -/
theorem expansionsReplicateBits : Obligations.ExpansionsReplicateBits := by
  unfold Obligations.ExpansionsReplicateBits
  refine ⟨by decide, by decide, fun v => ⟨exp5_toNat v, ?_⟩, fun v => ⟨exp6_toNat v, ?_⟩, fun v => ⟨exp4_eq_mul v, ?_⟩⟩
  · rw [exp5_toNat, replicate_shiftRight v 3 2 (by decide)]
  · rw [exp6_toNat, replicate_shiftRight v 2 4 (by decide)]
  · rw [exp4_toNat, replicate_shiftRight v 4 0 (by decide)]

/-! ## The endpoint word -/

/-- A slice of an endpoint word is its quotient by a power of two, cut to the slice's width. -/
theorem extractLsb'_eq_ofNat_div (c : BitVec 16) (off w : Nat) :
    c.extractLsb' off w = BitVec.ofNat w (c.toNat / 2 ^ off) := by
  rw [BitVec.extractLsb', Nat.shiftRight_eq_div_pow]

/-- Settles O9: each field of the word is a quotient cut to its width; the worked values by evaluation. -/
theorem endpointSplitsInto565 : Obligations.EndpointSplitsInto565 := by
  unfold Obligations.EndpointSplitsInto565
  refine ⟨fun c => ⟨?_, ?_, ?_⟩, by decide, by decide, by decide, by decide, by decide, by decide⟩
  · rw [exp565, extractLsb'_eq_ofNat_div c 11 5]
  · rw [exp565, extractLsb'_eq_ofNat_div c 5 6]
  · rw [exp565, extractLsb'_eq_ofNat_div c 0 5, pow_zero, Nat.div_one]

end Sys2Proof.Machine
end

section
/-! Proofs: the colour block. The mode of a block, the weights and the midpoint per channel, and the two palettes. -/
namespace Sys2Proof.Machine

/-! ## The mode -/

/-- R86: the mode is the unsigned comparison of the raw words, and it is asked only where punch-through is allowed. -/
theorem punchThrough_eq_true_iff (allowPt : Bool) (c : C64) :
    punchThrough allowPt c = true ↔ allowPt = true ∧ c.c0.toNat ≤ c.c1.toNat := by
  rw [punchThrough, Bool.and_eq_true, decide_eq_true_iff]

/-- Settles O11: both values of `allow_pt` in the predicate of R86. -/
theorem punchThroughByComparison : Obligations.PunchThroughByComparison := by
  unfold Obligations.PunchThroughByComparison
  intro c
  constructor
  · rw [punchThrough_eq_true_iff, and_iff_right rfl]
  · rw [punchThrough, Bool.false_and]

theorem cpal_of_not_punchThrough (bias : Nat) (allowPt : Bool) (c : C64) (h : punchThrough allowPt c = false) :
    cpal bias allowPt c = cpalOpaque c := by
  rw [cpal, if_neg (Bool.eq_false_iff.1 h)]

theorem cpal_of_punchThrough (bias : Nat) (allowPt : Bool) (c : C64) (h : punchThrough allowPt c = true) :
    cpal bias allowPt c = cpalPunch bias c := by
  rw [cpal, if_pos h]

/-! ## The interpolated entries -/

/-- `INTERP` at one third weighs endpoint 0 twice (R87). -/
theorem interp_one_third_toNat (x y : Byte) : (interp x y 1 3).toNat = (2 * x.toNat + y.toNat + 1) / 3 := by
  rw [interp_toNat x y 1 3 (by decide) (by decide), Nat.mul_one, Nat.mul_comm x.toNat]

/-- At two thirds the endpoints change places (R78, R87). -/
theorem interp_two_thirds_toNat (x y : Byte) : (interp x y 2 3).toNat = (x.toNat + 2 * y.toNat + 1) / 3 := by
  rw [interp_exchange x y 2 3 (by decide), interp_one_third_toNat, Nat.add_comm x.toNat]

/-! ## The palettes -/

/-- Settles O12: the two weighted entries channel by channel; no channel wraps. -/
theorem opaquePaletteEntries : Obligations.OpaquePaletteEntries := by
  unfold Obligations.OpaquePaletteEntries
  intro bias allowPt c h
  rw [cpal_of_not_punchThrough bias allowPt c h]
  simp [cpalOpaque, Rgb.opaqueEntry, interpRgb, interp_one_third_toNat, interp_two_thirds_toNat]

/-- Settles O13: the comparison puts the block in punch-through mode, and no channel of the midpoint wraps. -/
theorem punchThroughPaletteEntries : Obligations.PunchThroughPaletteEntries := by
  unfold Obligations.PunchThroughPaletteEntries
  intro bias c hbias hle
  rw [cpal_of_punchThrough bias true c ((punchThrough_eq_true_iff true c).2 ⟨rfl, hle⟩)]
  simp [cpalPunch, Rgb.opaqueEntry, midpointRgb, midpoint_toNat bias _ _ hbias]

end Sys2Proof.Machine
end

section
/-! Proofs: the alpha block. The mode of a block, `INTERP` by its two weights, and the two palettes. -/
namespace Sys2Proof.Machine

/-! ## The mode -/

/-- R98: the mode is the unsigned comparison of the raw endpoint bytes. -/
theorem sevenStep_eq_true_iff (a : A64) : sevenStep a = true ↔ a.a0.toNat > a.a1.toNat := by
  rw [sevenStep, decide_eq_true_iff]

theorem apal_of_gt (a : A64) (h : a.a0.toNat > a.a1.toNat) : apal a = apal7 a := by
  rw [apal, if_pos ((sevenStep_eq_true_iff a).2 h)]

theorem apal_of_le (a : A64) (h : a.a0.toNat ≤ a.a1.toNat) : apal a = apal5 a := by
  rw [apal, if_neg (mt (sevenStep_eq_true_iff a).1 h.not_gt)]

/-! ## The interpolated entries -/

/-- `INTERP` as the palettes of R99 and R100 write it: both weights in front, their sum the denominator. -/
theorem interp_toNat_of_weights {w0 w1 den : Nat} (x y : Byte) (hsum : w0 + w1 = den) (hd : 0 < den) :
    (interp x y w1 den).toNat = (w0 * x.toNat + w1 * y.toNat + den / 2) / den := by
  rw [interp_toNat x y w1 den (hsum ▸ Nat.le_add_left w1 w0) hd, Nat.sub_eq_of_eq_add hsum.symm,
    Nat.mul_comm x.toNat, Nat.mul_comm y.toNat]

/-- The denominator of the 7-step palette, rounded by 3 (R99). -/
theorem interp_sevenths_toNat {w0 w1 : Nat} (x y : Byte) (hsum : w0 + w1 = 7) :
    (interp x y w1 7).toNat = (w0 * x.toNat + w1 * y.toNat + 3) / 7 :=
  interp_toNat_of_weights x y hsum (by decide)

/-- The denominator of the 5-step palette, rounded by 2 (R100). -/
theorem interp_fifths_toNat {w0 w1 : Nat} (x y : Byte) (hsum : w0 + w1 = 5) :
    (interp x y w1 5).toNat = (w0 * x.toNat + w1 * y.toNat + 2) / 5 :=
  interp_toNat_of_weights x y hsum (by decide)

/-! ## The palettes -/

/-- Settles O14: the comparison selects `apal7`, whose entries 2 to 7 are the weights 6 to 1 and 1 to 6 over 7. -/
theorem sevenStepPaletteEntries : Obligations.SevenStepPaletteEntries := by
  unfold Obligations.SevenStepPaletteEntries
  intro a h
  have entry {w0 w1 : Nat} (hsum : w0 + w1 = 7) := interp_sevenths_toNat a.a0 a.a1 hsum
  rw [apal_of_gt a h]
  simp only [apal7, List.map_cons, List.map_nil, entry (rfl : 6 + 1 = 7), entry (rfl : 5 + 2 = 7),
    entry (rfl : 4 + 3 = 7), entry (rfl : 3 + 4 = 7), entry (rfl : 2 + 5 = 7), entry (rfl : 1 + 6 = 7)]

/-- Settles O15: the comparison selects `apal5`, whose entries 2 to 5 are the weights 4 to 1 and 1 to 4 over 5; the entries
0 and 255 are literals. -/
theorem fiveStepPaletteEntries : Obligations.FiveStepPaletteEntries := by
  unfold Obligations.FiveStepPaletteEntries
  intro a h
  have entry {w0 w1 : Nat} (hsum : w0 + w1 = 5) := interp_fifths_toNat a.a0 a.a1 hsum
  have hfixed : [(0 : Byte), 255].map BitVec.toNat = [0, 255] := rfl
  rw [apal_of_le a h]
  simp only [apal5, List.map_cons, hfixed, entry (rfl : 4 + 1 = 5), entry (rfl : 3 + 2 = 5),
    entry (rfl : 2 + 3 = 5), entry (rfl : 1 + 4 = 5)]

end Sys2Proof.Machine
end

section
/-! Proofs: the format dispatch. The sub-blocks an instruction gets from its block, the texel registers its block step leaves,
the texels of a block by its halves, and the step that fetches the block. -/
namespace Sys2Proof.Machine

/-! ## The decode clauses -/

/-- A stream of exactly one block is read whole (R50, R60). -/
theorem decode_whole_block (f : Format) (bs : List Byte) (h : bs.length = f.size) :
    decode f.code bs = .ok (decodeBlock f bs, []) := by
  simpa using decode_block_append f bs [] h

/-- Two halves are one 16-byte block (R55). -/
theorem decode_halves (f : Format) {lo hi : List Byte} (hf : f.size = 16) (hlo : lo.length = 8) (hhi : hi.length = 8) :
    decode f.code (lo ++ hi) = .ok (decodeBlock f (lo ++ hi), []) :=
  decode_whole_block f _ (by rw [List.length_append, hlo, hhi, hf])

theorem decodeX64_xa (bs : List Byte) : (decodeX64 bs).xa = (List.range 16).map fun t => field bs (4 * t) 4 := by
  simp [decodeX64, texelFields]

/-! ## The texels of a patch -/

/-- A Bc1 texel is the whole palette entry, its alpha included (R106). -/
theorem patchOf_decBc1_getD (bias : Nat) (col : C64) {n : Nat} (hn : n < 16) :
    (patchOf bias (.decBc1 col)).getD n [] = let c := cblk bias true col n; [c.r, c.g, c.b, c.a] := by
  rw [patchOf, patchBc1, texels_getD _ n hn]

/-- A Bc2 texel: colour in opaque mode, then the texel's own alpha expanded (R107). -/
theorem patchOf_decBc2_getD (bias : Nat) (alpha : X64) (col : C64) {n : Nat} (hn : n < 16) :
    (patchOf bias (.decBc2 alpha col)).getD n [] =
      let c := cblk 0 false col n; [c.r, c.g, c.b, xblk alpha n] := by
  rw [patchOf, patchBc2, texels_getD _ n hn]

/-- A Bc3 texel: colour in opaque mode, then the alpha palette's byte (R108). -/
theorem patchOf_decBc3_getD (bias : Nat) (alpha : A64) (col : C64) {n : Nat} (hn : n < 16) :
    (patchOf bias (.decBc3 alpha col)).getD n [] =
      let c := cblk 0 false col n; [c.r, c.g, c.b, ablk alpha n] := by
  rw [patchOf, patchBc3, texels_getD _ n hn]

/-- A Bc4 texel is one byte of the alpha palette (R109). -/
theorem patchOf_decBc4_getD (bias : Nat) (chan : A64) {n : Nat} (hn : n < 16) :
    (patchOf bias (.decBc4 chan)).getD n [] = [ablk chan n] := by
  rw [patchOf, patchBc4, texels_getD _ n hn]

/-- A Bc5 texel is one byte of each palette (R110). -/
theorem patchOf_decBc5_getD (bias : Nat) (chan0 chan1 : A64) {n : Nat} (hn : n < 16) :
    (patchOf bias (.decBc5 chan0 chan1)).getD n [] = [ablk chan0 n, ablk chan1 n] := by
  rw [patchOf, patchBc5, texels_getD _ n hn]

/-! ## The texel registers after a decode instruction -/

/-- A decode instruction completes; each texel register holds its texel in the low bytes and keeps the bytes above them
(R12, R111). -/
theorem exec_writes_texels {i : Instr} {f : Format} {texel : Nat → List Byte} (s : State) (hi : i.code = f.code)
    (hpatch : ∀ n, n < 16 → (patchOf Config.midpointBias.val i).getD n [] = texel n)
    (hchan : ∀ n, (texel n).length = f.chan) :
    ∃ t, exec i s = .next t ∧ ∀ n, n < 16 → lanes f.chan (t.texelReg n) = texel n ∧
      (t.texelReg n).toNat / 256 ^ f.chan = (s.texelReg n).toNat / 256 ^ f.chan := by
  refine ⟨_, exec_of_formatOf i f s (hi ▸ formatOf_code f), fun n hn => ?_⟩
  have hlen : ((patchOf Config.midpointBias.val i).getD n []).length = f.chan := by rw [hpatch n hn, hchan]
  exact ⟨(s.finishBlock_lanes f _ n _ hn hlen f.chan_le).trans (hpatch n hn), s.finishBlock_high f _ n _ hn hlen f.chan_le⟩

/-! ## Alpha of a Bc1 texel -/

theorem bitVec2_cases : ∀ k : BitVec 2, k = 0 ∨ k = 1 ∨ k = 2 ∨ k = 3 := by decide

/-- R106: only index 3 of a punch-through block is transparent, and its entry is black. -/
theorem cblk_transparent_or_opaque (bias : Nat) (c : C64) (t : Nat) :
    if c.cidx.getD t 0 = 3 ∧ c.c0.toNat ≤ c.c1.toNat then cblk bias true c t = ⟨0, 0, 0, 0⟩
    else (cblk bias true c t).a = 255 := by
  rw [cblk]
  generalize c.cidx.getD t 0 = k
  by_cases hle : c.c0.toNat ≤ c.c1.toNat
  · rw [cpal_of_punchThrough bias true c ((punchThrough_eq_true_iff true c).2 ⟨rfl, hle⟩)]
    rcases bitVec2_cases k with rfl | rfl | rfl | rfl <;> simp [hle, cpalPunch, Rgb.opaqueEntry, midpointRgb]
  · rw [if_neg (fun h => hle h.2), cpal_of_not_punchThrough bias true c (by simpa [punchThrough] using hle)]
    rcases bitVec2_cases k with rfl | rfl | rfl | rfl <;> rfl

/-- Outside punch-through mode a texel's colour is an entry of the opaque palette (R107, R108). -/
theorem cpalOpaque_get_cblk (bias : Nat) (c : C64) (t : Nat) :
    (cpalOpaque c)[(c.cidx.getD t 0).toNat]? = some (cblk bias false c t) := by
  rw [← cpal_not_allowed bias c, cpal_get_cblk]

/-! ## The five decode instructions -/

/-- Settles O16: the register holds the texel of `CBLK`, which is the palette entry of its index. -/
theorem decBc1WritesPatch : Obligations.DecBc1WritesPatch := by
  unfold Obligations.DecBc1WritesPatch
  refine ⟨fun blk h => ?_, fun col s => ?_⟩
  · exact (decode_whole_block .bc1 blk h).trans (by rw [decodeBlock_bc1 h]; rfl)
  · obtain ⟨t, hexec, hregs⟩ := exec_writes_texels (f := .bc1) s rfl
      (fun _ => patchOf_decBc1_getD Config.midpointBias.val col) fun _ => rfl
    refine ⟨t, hexec, fun n hn => ⟨_, cpal_get_cblk Config.midpointBias.val true col n, ?_, ?_⟩⟩
    · exact (hregs n hn).1
    · exact cblk_transparent_or_opaque Config.midpointBias.val col n

/-- Settles O17: colour without punch-through from the second half, the 4-bit alphas from the first. -/
theorem decBc2WritesPatch : Obligations.DecBc2WritesPatch := by
  unfold Obligations.DecBc2WritesPatch
  refine ⟨fun lo hi hlo hhi => ?_, fun alpha col s => ?_⟩
  · rw [← decodeX64_xa]
    exact (decode_halves .bc2 rfl hlo hhi).trans (by rw [decodeBlock_bc2 hlo hhi]; rfl)
  · obtain ⟨t, hexec, hregs⟩ := exec_writes_texels (f := .bc2) s rfl
      (fun _ => patchOf_decBc2_getD Config.midpointBias.val alpha col) fun _ => rfl
    refine ⟨t, hexec, fun n hn => ⟨_, cpalOpaque_get_cblk 0 col n, ?_⟩⟩
    exact (hregs n hn).1

/-- Settles O18: colour without punch-through from the second half, the alpha palette's bytes from the first. -/
theorem decBc3WritesPatch : Obligations.DecBc3WritesPatch := by
  unfold Obligations.DecBc3WritesPatch
  refine ⟨fun lo hi hlo hhi => ?_, fun alpha col s => ?_⟩
  · exact (decode_halves .bc3 rfl hlo hhi).trans (by rw [decodeBlock_bc3 hlo hhi]; rfl)
  · obtain ⟨t, hexec, hregs⟩ := exec_writes_texels (f := .bc3) s rfl
      (fun _ => patchOf_decBc3_getD Config.midpointBias.val alpha col) fun _ => rfl
    refine ⟨t, hexec, fun n hn => ⟨_, _, cpalOpaque_get_cblk 0 col n, apal_get_ablk alpha n, ?_⟩⟩
    exact (hregs n hn).1

/-- Settles O19: one channel byte is written and the three bytes above it are kept. -/
theorem decBc4WritesPatch : Obligations.DecBc4WritesPatch := by
  unfold Obligations.DecBc4WritesPatch
  refine ⟨fun blk h => ?_, fun chan s => ?_⟩
  · exact (decode_whole_block .bc4 blk h).trans (by rw [decodeBlock_bc4 h]; rfl)
  · obtain ⟨t, hexec, hregs⟩ := exec_writes_texels (f := .bc4) s rfl
      (fun _ => patchOf_decBc4_getD Config.midpointBias.val chan) fun _ => rfl
    refine ⟨t, hexec, fun n hn => ⟨_, apal_get_ablk chan n, ?_, (hregs n hn).2⟩⟩
    exact (hregs n hn).1

/-- Settles O20: two channel bytes are written, each from its own palette, and the two bytes above them are kept. -/
theorem decBc5WritesPatch : Obligations.DecBc5WritesPatch := by
  unfold Obligations.DecBc5WritesPatch
  refine ⟨fun lo hi hlo hhi => ?_, fun chan0 chan1 s => ?_⟩
  · exact (decode_halves .bc5 rfl hlo hhi).trans (by rw [decodeBlock_bc5 hlo hhi]; rfl)
  · obtain ⟨t, hexec, hregs⟩ := exec_writes_texels (f := .bc5) s rfl
      (fun _ => patchOf_decBc5_getD Config.midpointBias.val chan0 chan1) fun _ => rfl
    refine ⟨t, hexec, fun n hn => ⟨_, _, apal_get_ablk chan0 n, apal_get_ablk chan1 n, ?_, (hregs n hn).2⟩⟩
    exact (hregs n hn).1

/-! ## The halves of a block -/

/-- A Bc2 texel: colour of bytes 8 to 15, alpha of bytes 0 to 7 (R107). -/
theorem decPatch_bc2_getD {lo hi : List Byte} {t : Nat} (hlo : lo.length = 8) (hhi : hi.length = 8) (ht : t < 16) :
    (decPatch .bc2 (lo ++ hi)).getD t [] =
      let c := cblk 0 false (decodeC64 hi) t; [c.r, c.g, c.b, xblk (decodeX64 lo) t] := by
  rw [decPatch, decodeBlock_bc2 hlo hhi, patchOf_decBc2_getD _ _ _ ht]

/-- A Bc3 texel: colour of bytes 8 to 15, alpha of bytes 0 to 7 (R108). -/
theorem decPatch_bc3_getD {lo hi : List Byte} {t : Nat} (hlo : lo.length = 8) (hhi : hi.length = 8) (ht : t < 16) :
    (decPatch .bc3 (lo ++ hi)).getD t [] =
      let c := cblk 0 false (decodeC64 hi) t; [c.r, c.g, c.b, ablk (decodeA64 lo) t] := by
  rw [decPatch, decodeBlock_bc3 hlo hhi, patchOf_decBc3_getD _ _ _ ht]

/-- A Bc5 texel: channel 0 of bytes 0 to 7, channel 1 of bytes 8 to 15 (R110). -/
theorem decPatch_bc5_getD {lo hi : List Byte} {t : Nat} (hlo : lo.length = 8) (hhi : hi.length = 8) (ht : t < 16) :
    (decPatch .bc5 (lo ++ hi)).getD t [] = [ablk (decodeA64 lo) t, ablk (decodeA64 hi) t] := by
  rw [decPatch, decodeBlock_bc5 hlo hhi, patchOf_decBc5_getD _ _ _ ht]

/-- Settles O21: each channel of a texel names one half only, so the half that differs is not in the part compared. -/
theorem blockHalvesAreIndependent : Obligations.BlockHalvesAreIndependent := by
  unfold Obligations.BlockHalvesAreIndependent
  intro lo lo' hi hi' t hlo hlo' hhi hhi' ht
  refine ⟨fun f hf => ?_, ?_, ?_⟩
  · rcases hf with rfl | rfl
    · rw [decPatch_bc2_getD hlo hhi ht, decPatch_bc2_getD hlo' hhi ht, decPatch_bc2_getD hlo hhi' ht]
      exact ⟨rfl, rfl⟩
    · rw [decPatch_bc3_getD hlo hhi ht, decPatch_bc3_getD hlo' hhi ht, decPatch_bc3_getD hlo hhi' ht]
      exact ⟨rfl, rfl⟩
  · rw [decPatch_bc5_getD hlo hhi ht, decPatch_bc5_getD hlo hhi' ht]
    rfl
  · rw [decPatch_bc5_getD hlo hhi ht, decPatch_bc5_getD hlo' hhi ht]
    rfl

/-! ## The step that fetches a block -/

/-- The instruction of exactly one block's bytes is the decoding of that block. -/
theorem eq_decodeBlock_of_decode {code : BitVec 3} {f : Format} {bs : List Byte} {i : Instr}
    (hf : formatOf code = some f) (hbs : bs.length = f.size) (h : decode code bs = .ok (i, [])) : i = decodeBlock f bs := by
  rw [code_of_formatOf code f hf, decode_whole_block f bs hbs] at h
  cases h
  rfl

/-- Settles O27: fetch and execute is `exec` of the decoded instruction on the fetched state; the step is that, settled. -/
theorem stepRunsDecodedBlock : Obligations.StepRunsDecodedBlock := by
  unfold Obligations.StepRunsDecodedBlock
  intro s f i hb hf hdec
  obtain rfl := eq_decodeBlock_of_decode hf (s.fetchBytes_length _ _) hdec
  have hcore : coreStep s = onNext s.settleStep (exec (decodeBlock f (s.fetchBytes s.cur.toNat f.size)) s.fetchBlock) := by
    rw [coreStep, if_pos hb, fetchExec_legal s f hf, exec_decodeBlock]
  refine ⟨?_, fun hh => ?_, fun hh hout hin => ?_, fun u rest hu hpop => ?_⟩
  · rw [← codeBytes_of_formatOf _ f hf, State.lanes_fetchBlock]
  · rw [step_noHost s hh, hcore]
  · rw [step_noHost s hh, coreStep_running s f hb hf, exec_decodeBlock, State.settleBlock_untouched]
    · simpa using hin
    · simpa using hout
  · rw [step_host u .pass rest hu, hpop, hostStep, hcore]

end Sys2Proof.Machine
end

section
/-! Proofs: the image sequencer. The fetch, the block step by its outcomes and its frame, the place of a running command in
IN, what the core keeps of its input, and the run of a whole command: the state after each block step and the image after the
last one. -/
namespace Sys2Proof.Machine

/-! ## The fetch -/

/-- A byte that the host has not rewritten during the command is seen as IN holds it (R159; log 8). -/
theorem State.fetchByte_of_not_logged (s : State) (a : Nat) (h : ∀ c ∈ s.inLog, c.1 ≠ a) :
    s.fetchByte a = s.inMem.read a := by
  rw [State.fetchByte, State.seenByte, logged_of_ne _ a h, pick_nil]

/-- Byte `i` of the bytes fetched (R8). -/
theorem State.fetchBytes_getD (s : State) (a n i : Nat) (h : i < n) : (s.fetchBytes a n).getD i 0 = s.fetchByte (a + i) := by
  simp [State.fetchBytes, h]

/-- Settles O26: the lanes below the block size are those that `setLanes` writes. -/
theorem fetchLoadsBlockRegister : Obligations.FetchLoadsBlockRegister := by
  unfold Obligations.FetchLoadsBlockRegister
  intro s f hf
  have hlen : (s.fetchBytes s.cur.toNat f.size).length = f.size := s.fetchBytes_length _ _
  have hsize := f.size_le
  have hblk : s.fetchBlock.blk = setLanes s.blk (s.fetchBytes s.cur.toNat f.size) := by
    rw [State.fetchBlock, codeBytes_of_formatOf _ f hf]
  rw [hblk]
  refine ⟨fun i hi => ?_, fun i hi hi16 => ?_, s.fetchByte_of_not_logged⟩
  · rw [lanes_setLanes_low _ _ 16 i (by omega) (by omega) (by omega), State.fetchBytes_getD _ _ _ _ hi]
  · exact lanes_setLanes_high _ _ 16 i (by omega) (by omega) hi16

/-- Settles O29. -/
theorem idleStepChangesNothing : Obligations.IdleStepChangesNothing := by
  unfold Obligations.IdleStepChangesNothing
  intro s hh hb
  rw [step_noHost s hh, coreStep_idle s hb]

/-! ## The block step of a decode instruction -/

/-- What a block step can do to the counters and to STATUS: the next column, the next row, or the end of the command
(R122, R125). -/
theorem State.finishBlock_cases (s : State) (f : Format) (ts : List (List Byte)) :
    (s.bxi.toNat + 1 < s.blocksWide ∧ (s.finishBlock f ts).bxi = s.bxi + 1 ∧ (s.finishBlock f ts).byi = s.byi ∧
      (s.finishBlock f ts).status = s.status) ∨
    (¬ s.bxi.toNat + 1 < s.blocksWide ∧ s.byi.toNat + 1 < s.blocksHigh ∧ (s.finishBlock f ts).bxi = 0 ∧
      (s.finishBlock f ts).byi = s.byi + 1 ∧ (s.finishBlock f ts).status = s.status) ∨
    (¬ s.bxi.toNat + 1 < s.blocksWide ∧ ¬ s.byi.toNat + 1 < s.blocksHigh ∧ (s.finishBlock f ts).bxi = s.bxi ∧
      (s.finishBlock f ts).byi = s.byi ∧ (s.finishBlock f ts).status = statusWord false true s.err) := by
  have h := ((s.loadPatch ts).storePatch f).advance_cases f
  rwa [State.storePatch_bxi, State.storePatch_byi, State.storePatch_status, State.storePatch_err,
    State.storePatch_blocksWide, State.storePatch_blocksHigh, State.loadPatch_bxi, State.loadPatch_byi,
    State.loadPatch_status, State.loadPatch_err, State.loadPatch_blocksWide, State.loadPatch_blocksHigh] at h

/-- The fields of a STATUS that a known word gives (R19). -/
theorem State.fields_of_status {s : State} {b d : Bool} {e : BitVec 2} (h : s.status = statusWord b d e) :
    s.busy = b ∧ s.done = d ∧ s.err = e := by
  rw [State.busy, State.done, State.err, h]
  exact ⟨statusWord_busy b d e, statusWord_done b d e, statusWord_err b d e⟩

/-- A block step keeps ERR (R20). -/
@[simp] theorem State.finishBlock_err (s : State) (f : Format) (ts : List (List Byte)) :
    (s.finishBlock f ts).err = s.err := by
  have hkept : (s.finishBlock f ts).status = s.status → (s.finishBlock f ts).err = s.err := fun e => by
    rw [State.err, e, State.err]
  rcases s.finishBlock_cases f ts with ⟨-, -, -, e⟩ | ⟨-, -, -, -, e⟩ | ⟨-, -, -, -, e⟩
  · exact hkept e
  · exact hkept e
  · exact (State.fields_of_status e).2.2

/-- Settles O22: the stores of the loaded patch, at the pixel of each texel. -/
theorem blockStepStoresInBoundsTexels : Obligations.BlockStepStoresInBoundsTexels := by
  unfold Obligations.BlockStepStoresInBoundsTexels
  intro i f s hf
  refine ⟨_, exec_of_formatOf i f s hf, fun tx ty htx hty hx hy k hk => ?_, fun o ho => ?_⟩
  · have haddr := s.texelAddr_pixel f _ _ hx hy (by omega) (by omega)
    have ht : 4 * ((4 * s.byi.toNat + ty) % 4) + (4 * s.bxi.toNat + tx) % 4 = 4 * ty + tx := by omega
    rw [ht, ← s.texelAddr_loadPatch (patchOf Config.midpointBias.val i)] at haddr
    rw [State.finishBlock_outMem, State.finishBlock_texelReg, State.storePatch_stored _ f _ _ k (by omega) haddr hk]
  · rw [State.finishBlock_outMem, State.storePatch_kept _ f o (by simpa using ho), State.loadPatch_outMem]

/-- Settles O23, by the three outcomes of a block step. -/
theorem blockStepAdvances : Obligations.BlockStepAdvances := by
  unfold Obligations.BlockStepAdvances
  intro i f s hf
  refine ⟨_, exec_of_formatOf i f s hf, State.finishBlock_cur _ _ _, ?_⟩
  change if s.bxi.toNat + 1 < s.blocksWide then _ else if s.byi.toNat + 1 < s.blocksHigh then _ else _
  rcases s.finishBlock_cases f (patchOf Config.midpointBias.val i) with
    ⟨hx, ex, ey, est⟩ | ⟨hx, hy, ex, ey, est⟩ | ⟨hx, hy, ex, ey, est⟩
  · rw [if_pos hx, ex, toNat_succ_of_lt_ceil4 _ _ hx]
    exact ⟨rfl, ey, est⟩
  · rw [if_neg hx, if_pos hy, ey, toNat_succ_of_lt_ceil4 _ _ hy]
    exact ⟨ex, rfl, est⟩
  · rw [if_neg hx, if_neg hy]
    exact ⟨ex, ey, State.fields_of_status est⟩

/-- Settles O24, field by field. -/
theorem blockStepFrame : Obligations.BlockStepFrame := by
  unfold Obligations.BlockStepFrame
  intro i f s t hf h
  rw [exec_of_formatOf i f s hf] at h
  obtain rfl := Host.Outcome.next.inj h
  simp

/-! ## The place of a running command in IN -/

/-- The current block of a running command is one of its blocks (R14). -/
theorem State.CommandOk.blockNumber_lt {s : State} {f : Format} (h : s.CommandOk f) : s.blockNumber < s.nblocks := by
  calc s.blockNumber < (s.byi.toNat + 1) * s.blocksWide := by
        rw [State.blockNumber, Nat.succ_mul]
        exact Nat.add_lt_add_left h.column _
    _ ≤ s.blocksHigh * s.blocksWide := Nat.mul_le_mul_right _ h.row
    _ = s.nblocks := mul_comm _ _

/-- Settles O49: the cursor is at the current block, which is one of the `nblocks`. -/
theorem blockFetchInRange : Obligations.BlockFetchInRange := by
  unfold Obligations.BlockFetchInRange
  intro s hinv hb
  obtain ⟨f, hf⟩ := hinv.command hb
  refine ⟨f, hf.legal, hf.cursor ▸ Nat.dvd_mul_left _ _, ?_, hf.long⟩
  calc s.cur.toNat + f.size = (s.blockNumber + 1) * f.size := by rw [hf.cursor, State.blockNumber, Nat.succ_mul]
    _ ≤ s.required f := Nat.mul_le_mul_right _ hf.blockNumber_lt

/-! ## The texels of the block grid -/

/-- A block of the grid has counters that hold its coordinates (R14, R120). -/
theorem toNat_ofNat_of_lt_ceil4 (b : Nat) (n : BitVec 32) (h : b < ceil4 n.toNat) : (BitVec.ofNat 30 b).toNat = b := by
  have hn := ceil4_le n
  rw [BitVec.toNat_ofNat, Nat.mod_eq_of_lt (by omega)]

/-- A texel of the current block is stored to a pixel exactly if it is that pixel's texel and the block that pixel's block
(R124, R127). -/
theorem State.texelAddr_eq_pixel_iff (s : State) (f : Format) (x y n : Nat) (hx : x < s.width.toNat)
    (hy : y < s.height.toNat) (hn : n < 16) : s.texelAddr f n = some ((y * s.width.toNat + x) * f.chan) ↔
      s.bxi.toNat = x / 4 ∧ s.byi.toNat = y / 4 ∧ n = 4 * (y % 4) + x % 4 := by
  constructor
  · intro h
    obtain ⟨hx', -, e⟩ := s.texelAddr_some f n _ h
    obtain ⟨ex, ey⟩ := pixel_unique _ _ _ _ _ hx hx' (Nat.eq_of_mul_eq_mul_right f.chan_pos e)
    omega
  · rintro ⟨ex, ey, rfl⟩
    exact s.texelAddr_pixel f x y hx hy ex.symm ey.symm

/-- Settles O51: the pixel's own block and texel. -/
theorem everyPixelStoredOnce : Obligations.EveryPixelStoredOnce := by
  unfold Obligations.EveryPixelStoredOnce
  intro s f x y hx hy
  refine ⟨x / 4, y / 4, 4 * (y % 4) + x % 4, ?_, ?_, by omega, fun bx by' n hbx hby hn => ?_⟩
  · rw [State.blocksWide, ceil4]; omega
  · rw [State.blocksHigh, ceil4]; omega
  · have h := State.texelAddr_eq_pixel_iff { s with bxi := BitVec.ofNat 30 bx, byi := BitVec.ofNat 30 by' } f x y n hx hy hn
    rwa [toNat_ofNat_of_lt_ceil4 bx s.width hbx, toNat_ofNat_of_lt_ceil4 by' s.height hby] at h

/-! ## The input is the host's -/

/-- IN and the configuration of `t` are those of `s` (R129). -/
def State.SameInput (s t : State) : Prop :=
  t.inMem = s.inMem ∧ t.format = s.format ∧ t.width = s.width ∧ t.height = s.height ∧ t.inLen = s.inLen

theorem State.blockStep_sameInput (s : State) (f : Format) : s.SameInput (s.blockStep f) := by
  simp [State.SameInput, State.blockStep, State.storedBlock]

theorem coreStep_sameInput (s t : State) (h : coreStep s = .next t) : s.SameInput t := by
  rcases coreStep_cases s t h with ⟨-, rfl⟩ | ⟨-, -, rfl⟩ | ⟨f, -, -, rfl⟩
  · exact ⟨rfl, rfl, rfl, rfl, rfl⟩
  · exact ⟨rfl, rfl, rfl, rfl, rfl⟩
  · exact s.blockStep_sameInput f

theorem checkStep_sameInput (s t : State) (h : checkStep s = .next t) : s.SameInput t := by
  rcases checkStep_cases s t h with ⟨e, rfl⟩ | ⟨f, -, -, -, -, rfl⟩
  · exact ⟨rfl, rfl, rfl, rfl, rfl⟩
  · exact ⟨rfl, rfl, rfl, rfl, rfl⟩

/-- Settles O41: such a step is the core's own step, a check step, or a write of CTRL without effect. -/
theorem coreNeverWritesInput : Obligations.CoreNeverWritesInput := by
  unfold Obligations.CoreNeverWritesInput
  intro s t hhost h
  rcases hhost with hh | ⟨rest, hh⟩ | ⟨v, rest, hh⟩
  · rw [step_noHost s hh] at h
    exact coreStep_sameInput s t h
  · rw [step_host s _ rest hh] at h
    exact coreStep_sameInput (s.popHost rest) t h
  · rw [step_host s _ rest hh] at h
    rcases writeCtrl_cases v _ t h with ⟨-, rfl⟩ | ⟨-, -, hcheck⟩
    · exact ⟨rfl, rfl, rfl, rfl, rfl⟩
    · exact checkStep_sameInput (s.popHost rest) t hcheck

/-! ## The run of a whole command -/

/-- The cursor and the counters of a command that is at block `n` (R13, R14, R122). -/
theorem State.AtBlock.position {s : State} {f : Format} {n : Nat} (h : s.AtBlock f n) :
    s.cur.toNat = n * f.size ∧ s.bxi.toNat = n % s.blocksWide ∧ s.byi.toNat = n / s.blocksWide := by
  obtain ⟨-, -, hcmd, rfl⟩ := h
  have hcol := hcmd.column
  refine ⟨hcmd.cursor, ?_, ?_⟩
  · rw [State.blockNumber, Nat.mul_add_mod_self_right, Nat.mod_eq_of_lt hcol]
  · rw [State.blockNumber, mul_comm, Nat.mul_add_div (Nat.zero_lt_of_lt hcol), Nat.div_eq_of_lt hcol, Nat.add_zero]

/-- A block step moves the cursor of a running command past its block (R13). -/
theorem State.CommandOk.blockStep_cur_toNat {s : State} {f : Format} (h : s.CommandOk f) :
    (s.blockStep f).cur.toNat = (s.blockNumber + 1) * f.size := by
  rw [State.blockStep, State.settleBlock_cur, h.storedBlock.advance_cur_toNat, h.storedBlock.cursor, Nat.succ_mul]
  simp [State.storedBlock, State.blockNumber]

theorem State.afterBlocks_blocksWide (s : State) (f : Format) (n : Nat) :
    (s.afterBlocks f n).blocksWide = s.blocksWide := by
  obtain ⟨hw, -⟩ := s.afterBlocks_frame f n
  rw [State.blocksWide, hw, State.blocksWide]

/-- STATUS is as it was at acceptance while blocks are left (R125). -/
theorem State.AtBlock.afterBlocks_status {s : State} {f : Format} (h : s.AtBlock f 0) (n : Nat) (hn : n < s.nblocks) :
    (s.afterBlocks f n).status = s.status := by
  induction n with
  | zero => rfl
  | succ n ih =>
    obtain ⟨-, -, hcmd, hnum⟩ := h.afterBlocks n (by omega)
    rw [State.afterBlocks, hcmd.blockStep_status, hnum, s.afterBlocks_nblocks, if_pos hn, ih (by omega)]

/-- The last block step ends the command, without changing ERR, with the cursor past the last block (R125). -/
theorem State.AtBlock.afterBlocks_end {s : State} {f : Format} (h : s.AtBlock f 0) :
    (s.afterBlocks f s.nblocks).status = statusWord false true s.err ∧
    (s.afterBlocks f s.nblocks).cur.toNat = s.required f := by
  obtain ⟨n, hn⟩ := Nat.exists_eq_succ_of_ne_zero (Nat.ne_zero_of_lt h.command.blockNumber_lt)
  have hlt : n < s.nblocks := by omega
  obtain ⟨-, -, hcmd, hnum⟩ := h.afterBlocks n hlt
  have herr : (s.afterBlocks f n).err = s.err := by rw [State.err, h.afterBlocks_status n hlt, State.err]
  rw [State.required, hn, State.afterBlocks]
  constructor
  · rw [hcmd.blockStep_status, hnum, s.afterBlocks_nblocks, if_neg (by omega), herr]
  · rw [hcmd.blockStep_cur_toNat, hnum]

/-- A command that was accepted without error ends without error. -/
theorem State.AtBlock.afterBlocks_end_status {s : State} {f : Format} (h : s.AtBlock f 0) (hs : s.status = 0b0001) :
    (s.afterBlocks f s.nblocks).status = 0b0010 := by
  rw [h.afterBlocks_end.1, State.err, hs]
  rfl

/-- Settles O52: after `n` steps the command is at block `n`, and the step of the last block ends it. -/
theorem commandTakesOneStepPerBlock : Obligations.CommandTakesOneStepPerBlock := by
  unfold Obligations.CommandTakesOneStepPerBlock
  intro s f hh hs hc _ hx0 hy0
  have h := hc.atBlock_zero hh hs hx0 hy0
  refine ⟨fun n hn => ?_, s.afterBlocks f s.nblocks, h.run _ le_rfl, h.afterBlocks_end_status hs, h.afterBlocks_end.2⟩
  have hpos := (h.afterBlocks n hn).position
  rw [s.afterBlocks_blocksWide] at hpos
  exact ⟨s.afterBlocks f n, h.run n hn.le, (h.afterBlocks_status n hn).trans hs, hpos⟩

/-! ## What a whole command leaves -/

theorem State.afterBlocks_sameInput (s : State) (f : Format) (n : Nat) : s.SameInput (s.afterBlocks f n) := by
  induction n with
  | zero => exact ⟨rfl, rfl, rfl, rfl, rfl⟩
  | succ n ih =>
    obtain ⟨em, ef, ew, eh, el⟩ := ih
    obtain ⟨em', ef', ew', eh', el'⟩ := (s.afterBlocks f n).blockStep_sameInput f
    exact ⟨em'.trans em, ef'.trans ef, ew'.trans ew, eh'.trans eh, el'.trans el⟩

/-- Where the host has written neither IN nor OUT, a block step leaves OUT beyond the image (R37). -/
theorem State.blockStep_beyond (s : State) (f : Format) (o : Nat) (hin : s.inLog = []) (hout : s.outLog = [])
    (ho : s.outSize f ≤ o) : (s.blockStep f).outMem.read o = s.outMem.read o := by
  rw [s.blockStep_outMem f hin hout, State.storedBlock, State.storePatch_elsewhere, State.fetchBlock_outMem]
  intro x y k hx hy hk _ _ e
  exact absurd (State.pixelByte_lt _ f x y k hx hy hk) (not_lt.2 (e ▸ ho))

theorem State.afterBlocks_beyond (s : State) (f : Format) (n o : Nat) (hin : s.inLog = []) (hout : s.outLog = [])
    (ho : s.outSize f ≤ o) : (s.afterBlocks f n).outMem.read o = s.outMem.read o := by
  induction n with
  | zero => rfl
  | succ n ih =>
    obtain ⟨hw, hh, -, hil, hol⟩ := s.afterBlocks_frame f n
    rw [State.afterBlocks, State.blockStep_beyond _ f o (hil.trans hin) (hol.trans hout), ih]
    rwa [State.outSize, hw, hh]

/-- Settles O53: every pixel belongs to one of the `nblocks` blocks, and no block step writes beyond the image. -/
theorem commandComputesDecode : Obligations.CommandComputesDecode := by
  unfold Obligations.CommandComputesDecode
  intro s f hh hs hc _ hx0 hy0 hin hout
  have h := hc.atBlock_zero hh hs hx0 hy0
  refine ⟨s.afterBlocks f s.nblocks, h.run _ le_rfl, h.afterBlocks_end_status hs, fun x y k hx hy hk => ?_,
    fun o ho => ?_, s.afterBlocks_sameInput f _⟩
  · exact h.afterBlocks_pixel hin hout hx hy hk _ le_rfl (s.blockOf_lt x y hx hy)
  · exact s.afterBlocks_beyond f _ o hin hout ho

end Sys2Proof.Machine
end

section
/-! Proofs: the exceptions. A reserved code's row as error entry, the START of an idle core as a check step, the answers of
every kind of step, and what an idle core keeps of its result. -/
namespace Sys2Proof.Machine

/-! ## Error entry and acceptance -/

/-- The reserved codes are 0, 6 and 7 (R57, R58). -/
theorem formatOf_eq_none_iff : ∀ code : BitVec 3, formatOf code = none ↔ code = 0 ∨ code = 6 ∨ code = 7 := by decide

/-- Every reserved row of the opcode table is error entry with UnsupportedFormat (R58, R136). -/
theorem exec_reserved (i : Instr) (s : State) (h : formatOf i.code = none) :
    exec i s = .next (s.raiseError .unsupportedFormat) := by
  cases i with
  | rsvd0 | rsvd6 | rsvd7 => rfl
  | decBc1 | decBc2 | decBc3 | decBc4 | decBc5 =>
    exact absurd ((formatOf_eq_none_iff _).1 h) (by rw [Instr.code]; decide)

/-- Error entry does not depend on what DONE and ERR were: the check step's clearing of them leaves no trace (R141, R148). -/
theorem State.raiseError_clearResult (s : State) (e : ErrorKind) : s.clearResult.raiseError e = s.raiseError e := rfl

/-- A command is accepted with DONE and ERR cleared (R148). -/
theorem State.accept_clearResult (s : State) : s.clearResult.accept =
    { s with cur := 0, bxi := 0, byi := 0, status := 0b0001, outOld := s.outMem, inLog := [], outLog := [] } := by
  have hdone : s.clearResult.done = false := s.done_mk s.busy false 0
  have herr : s.clearResult.err = 0 := s.err_mk s.busy false 0
  rw [State.accept, hdone, herr]
  rfl

/-- Settles O25: error entry is the STATUS word BUSY 0, DONE 1, ERR 2. -/
theorem reservedCodesEndUnsupported : Obligations.ReservedCodesEndUnsupported := by
  unfold Obligations.ReservedCodesEndUnsupported
  intro i s hi
  have hcode : formatOf i.code = none := by rcases hi with rfl | rfl | rfl <;> decide
  exact exec_reserved i s hcode

/-! ## The check step of START -/

/-- A START on an idle core is the check step (R18, R148). -/
theorem step_start_idle (s : State) (rest : List HostOp) (hh : s.host = .writeCtrl 1 :: rest) (hb : s.busy = false) :
    step s = checkStep (s.popHost rest) := by
  rw [step_host s _ rest hh, hostStep, writeCtrl, if_neg]
  simp [hb]

/-- A code that an empty stream suffices to decode is reserved (R50, R58). -/
theorem formatOf_of_decode_nil {code : BitVec 3} {i : Instr} (h : decode code [] = .ok (i, [])) :
    formatOf code = none ∧ i.code = code := by
  obtain ⟨-, hcode, -⟩ := encodeOfDecode code [] [] i h
  cases hf : formatOf code with
  | none => exact ⟨rfl, hcode⟩
  | some f =>
    rw [decode_legal code f [] hf, if_pos (by simpa using f.size_pos)] at h
    cases h

/-- Settles O28: the check step with a reserved code and that code's row are the same error entry. -/
theorem stepRunsReservedCode : Obligations.StepRunsReservedCode := by
  unfold Obligations.StepRunsReservedCode
  intro s rest i hh hb hdec
  obtain ⟨hf, hcode⟩ := formatOf_of_decode_nil hdec
  rw [step_start_idle s rest hh hb, checkStep_reserved (s.popHost rest) hf, exec_reserved i _ (hcode ▸ hf)]

/-- A legal code with WIDTH or HEIGHT 0 is InvalidDimensions (R137). -/
theorem checkStep_invalidDimensions (s : State) (f : Format) (hf : formatOf s.format = some f)
    (hdim : s.width = 0 ∨ s.height = 0) : checkStep s = .next (s.raiseError .invalidDimensions) := by
  rw [checkStep_legal s f hf, State.checkArgs, State.clearResult_width, State.clearResult_height, if_pos hdim,
    State.raiseError_clearResult]

/-- The input that a command reads does not depend on STATUS (R120). -/
theorem State.clearResult_required (s : State) (f : Format) : s.clearResult.required f = s.required f := by
  rw [State.required, State.clearResult_nblocks, State.required]

/-- A legal code with its dimensions in order and an input of the wrong length is InputTooShort (R138; log 3). -/
theorem checkStep_inputTooShort (s : State) (f : Format) (hf : formatOf s.format = some f)
    (hdim : ¬ (s.width = 0 ∨ s.height = 0))
    (hlen : s.inLen.toNat < s.required f ∨ (Config.strictLength = true ∧ s.inLen.toNat ≠ s.required f)) :
    checkStep s = .next (s.raiseError .inputTooShort) := by
  rw [checkStep_legal s f hf, State.checkArgs, State.clearResult_width, State.clearResult_height,
    State.clearResult_inLen, State.clearResult_required, if_neg hdim, if_pos (hlen.imp_right And.symm),
    State.raiseError_clearResult]

/-- A legal code with its dimensions and its length in order is accepted (R148). -/
theorem checkStep_accepts (s : State) (f : Format) (hf : formatOf s.format = some f)
    (hdim : ¬ (s.width = 0 ∨ s.height = 0))
    (hlen : ¬ (s.inLen.toNat < s.required f ∨ (Config.strictLength = true ∧ s.inLen.toNat ≠ s.required f))) :
    checkStep s = .next s.clearResult.accept := by
  rw [checkStep_legal s f hf, State.checkArgs, State.clearResult_width, State.clearResult_height,
    State.clearResult_inLen, State.clearResult_required, if_neg hdim, if_neg fun h => hlen (h.imp_right And.symm)]

/-- Settles O31: the four outcomes of the check step, each by its own lemma. -/
theorem startRunsCheckStep : Obligations.StartRunsCheckStep := by
  unfold Obligations.StartRunsCheckStep
  intro s rest hh hb
  rw [step_start_idle s rest hh hb]
  refine ⟨fun hres => ?_, fun f hf => ?_⟩
  · exact checkStep_reserved (s.popHost rest) ((formatOf_eq_none_iff s.format).2 hres)
  · have hsome : formatOf s.format = some f := hf ▸ formatOf_code f
    dsimp only
    split
    · next hdim => exact checkStep_invalidDimensions (s.popHost rest) f hsome hdim
    · next hdim =>
      split
      · next hlen => exact checkStep_inputTooShort (s.popHost rest) f hsome hdim hlen
      · next hlen =>
        rw [checkStep_accepts (s.popHost rest) f hsome hdim hlen, State.accept_clearResult, State.popHost_outMem]

/-! ## Every step answers a next state -/

/-- The core's own step answers, whether a command runs or not and whatever FORMAT holds (R140; log 11). -/
theorem coreStep_answers (s : State) : ∃ t, coreStep s = .next t := by
  cases hb : s.busy with
  | false => exact ⟨_, coreStep_idle s hb⟩
  | true =>
    cases hf : formatOf s.format with
    | none => exact ⟨_, coreStep_reserved s hb hf⟩
    | some f => exact ⟨_, coreStep_running s f hb hf⟩

/-- The check step answers: the three errors are next states (R135, R140). -/
theorem checkStep_answers (s : State) : ∃ t, checkStep s = .next t := by
  cases hf : formatOf s.format with
  | none => exact ⟨_, checkStep_reserved s hf⟩
  | some f => exact ⟨_, checkStep_legal s f hf⟩

theorem writeCtrl_answers (v : BitVec 1) (s : State) : ∃ t, writeCtrl v s = .next t := by
  unfold writeCtrl
  split
  · exact ⟨s, rfl⟩
  · exact checkStep_answers s

/-- Every access of the host answers; only pass and a write of CTRL run the core. -/
theorem hostStep_answers (op : HostOp) (s : State) : ∃ t, hostStep op s = .next t := by
  cases op with
  | pass => exact coreStep_answers s
  | writeCtrl v => exact writeCtrl_answers v s
  | writeFormat | writeWidth | writeHeight | writeInLen | readReg | writeIn | writeOut | readOut | reset => exact ⟨_, rfl⟩

/-- Settles O30: the step is the core's own or the host's oldest access, and both answer. -/
theorem stepAlwaysAnswersNext : Obligations.StepAlwaysAnswersNext := by
  unfold Obligations.StepAlwaysAnswersNext
  intro s
  rcases hh : s.host with _ | ⟨op, rest⟩
  · rw [step_noHost s hh]
    exact coreStep_answers s
  · rw [step_host s op rest hh]
    exact hostStep_answers op _

/-! ## The result of an idle core -/

/-- The idle core's own step keeps STATUS (R125, R149). -/
theorem coreStep_idle_status (s t : State) (hb : s.busy = false) (h : coreStep s = .next t) : t.status = s.status := by
  rw [coreStep_idle s hb] at h
  rw [← Host.Outcome.next.inj h]

/-- A write of CTRL that is no START keeps STATUS (R18). -/
theorem writeCtrl_status (v : BitVec 1) (s t : State) (hv : v ≠ 1) (h : writeCtrl v s = .next t) :
    t.status = s.status := by
  rcases writeCtrl_cases v s t h with ⟨-, rfl⟩ | ⟨hne, -, -⟩
  · rfl
  · exact absurd (BitVec.eq_zero_or_eq_one v) (not_or.2 ⟨hne, hv⟩)

/-- An access to an idle core that is neither a START nor a reset keeps STATUS (R142, R148). -/
theorem hostStep_idle_status (op : HostOp) (s t : State) (hb : s.busy = false) (hstart : op ≠ .writeCtrl 1)
    (hreset : op ≠ .reset) (h : hostStep op s = .next t) : t.status = s.status := by
  by_cases hp : op = .pass
  · subst hp
    exact coreStep_idle_status s t hb h
  by_cases hc : ∃ v, op = .writeCtrl v
  · obtain ⟨v, rfl⟩ := hc
    exact writeCtrl_status v s t (fun e => hstart (e ▸ rfl)) h
  · exact (hostStep_coreKept s t op hp hreset (not_exists.1 hc) h).status

/-- Settles O36: with no access pending by the idle step, else by the access. -/
theorem resultKeptUntilNextStart : Obligations.ResultKeptUntilNextStart := by
  unfold Obligations.ResultKeptUntilNextStart
  intro s t hb hstart hreset h
  rcases hh : s.host with _ | ⟨op, rest⟩
  · rw [step_noHost s hh] at h
    exact coreStep_idle_status s t hb h
  · rw [step_host s op rest hh] at h
    rw [hostStep_idle_status op (s.popHost rest) t (by rw [State.popHost_busy, hb]) ?_ ?_ h, State.popHost_status]
    · exact fun e => hstart rest (e ▸ hh)
    · exact fun e => hreset rest (e ▸ hh)

end Sys2Proof.Machine
end

section
/-! Proofs: reset, and the host's accesses to a running command. The accesses that it ignores, and OUT as the host reads it,
writes it and leaves it by a reset: below `out_size` of a running command always one of `State.outCandidates`. -/
namespace Sys2Proof.Machine

/-! ## Accesses without effect, and reads of the configuration -/

theorem writeCtrl_no_effect (v : BitVec 1) (s : State) (h : v = 0 ∨ s.busy = true) : writeCtrl v s = .next s := by
  rw [writeCtrl, if_pos h]

/-- Settles O32: such a write of CTRL never reaches the check step. -/
theorem ctrlWriteWithoutEffect : Obligations.CtrlWriteWithoutEffect := by
  unfold Obligations.CtrlWriteWithoutEffect
  intro s rest v hh h
  have hpop : v = 0 ∨ (s.popHost rest).busy = true := by rwa [State.popHost_busy, or_comm]
  rw [step_host s _ rest hh, hostStep, writeCtrl_no_effect v _ hpop]

/-- The four writes of the configuration registers (R15, R16, R17). -/
def HostOp.writesConfig (op : HostOp) : Prop :=
  (∃ v, op = .writeFormat v) ∨ (∃ v, op = .writeWidth v) ∨ (∃ v, op = .writeHeight v) ∨ ∃ v, op = .writeInLen v

/-- A write of the configuration is ignored while busy (R158). -/
theorem HostOp.writesConfig.hostStep_busy {op : HostOp} (h : op.writesConfig) (s : State) (hb : s.busy = true) :
    hostStep op s = .next s := by
  rcases h with ⟨v, rfl⟩ | ⟨v, rfl⟩ | ⟨v, rfl⟩ | ⟨v, rfl⟩
  · rw [hostStep, State.hostWriteFormat, if_pos hb]
  · rw [hostStep, State.hostWriteWidth, if_pos hb]
  · rw [hostStep, State.hostWriteHeight, if_pos hb]
  · rw [hostStep, State.hostWriteInLen, if_pos hb]

/-- A read of a register, at any time (R148). -/
theorem step_readReg (s : State) (rest : List HostOp) (r : Reg) (hh : s.host = .readReg r :: rest) :
    step s = .next { s.popHost rest with rdata := s.readReg r } := by
  have hr : (s.popHost rest).readReg r = s.readReg r := by cases r <;> rfl
  rw [step_host s _ rest hh, hostStep, State.hostReadReg, hr]

/-- Settles O33: the ignored writes, then the reads, register by register. -/
theorem configurationFrozenWhileBusy : Obligations.ConfigurationFrozenWhileBusy := by
  unfold Obligations.ConfigurationFrozenWhileBusy
  intro s rest
  refine ⟨fun hb op hh hop => ?_, step_readReg s rest .format, step_readReg s rest .width, step_readReg s rest .height,
    step_readReg s rest .inLen⟩
  rw [step_host s op rest hh, HostOp.writesConfig.hostStep_busy hop _ (by rwa [State.popHost_busy])]

/-! ## Reset -/

theorem step_reset (s : State) (rest : List HostOp) (hh : s.host = .reset :: rest) :
    step s = .next (s.popHost rest).hostReset := by rw [step_host s _ rest hh, hostStep]

/-- Settles O38: the registers are those of `State.reset`. -/
theorem resetInputRestoresRegisters : Obligations.ResetInputRestoresRegisters := by
  unfold Obligations.ResetInputRestoresRegisters
  intro s rest hh
  refine ⟨_, step_reset s rest hh, rfl, rfl, rfl, rfl, rfl, rfl, rfl, rfl, rfl, fun hb => ?_⟩
  rw [State.hostReset_outMem_idle _ (by rwa [State.popHost_busy]), State.popHost_outMem]

/-! ## The candidates for a byte of OUT -/

/-- What the spec leaves a byte of OUT to be while a command runs: what OUT holds, the old byte, the command's byte or one
the host wrote there (R156, R160). -/
def State.outCandidates (s : State) (f : Format) (o : Nat) : List Byte :=
  [s.outMem.read o, s.outOld.read o, s.resultByte f o] ++ logged s.outLog o

theorem State.pick_mem_outCandidates (s : State) (use : FreeUse) (f : Format) (o : Nat) :
    pick use s.freeCtr o (s.outMem.read o) (s.outAlternatives f o) ∈ s.outCandidates f o := pick_mem _ _ _ _ _

/-- The texel that the pixel shows is decoded from a mixture of the block's old and new bytes (R45, U3; log 8). -/
theorem State.mixedTexel_decodes (s : State) (f : Format) (n x y : Nat) :
    ∃ bs, s.Mixture f n bs ∧ ∀ k, (s.mixedTexel f n (4 * (y % 4) + x % 4)).getD k 0 = decodedByte f bs x y k :=
  ⟨_, s.mixture_seenByte (.texel (4 * (y % 4) + x % 4)) f n, fun _ => rfl⟩

/-- The command's byte at a channel of a pixel is a channel of that pixel's texel (R33, R121). -/
theorem State.resultByte_pixelByte (s : State) (f : Format) (x y k : Nat) (hx : x < s.width.toNat) (hk : k < f.chan) :
    s.resultByte f (s.pixelByte f x y k) = (s.mixedTexel f (s.blockOf x y) (4 * (y % 4) + x % 4)).getD k 0 := by
  have hpix : s.pixelByte f x y k / f.chan = y * s.width.toNat + x := by
    rw [State.pixelByte, mul_comm, Nat.mul_add_div f.chan_pos, Nat.div_eq_of_lt hk, Nat.add_zero]
  have hchan : s.pixelByte f x y k % f.chan = k := by
    rw [State.pixelByte, Nat.mul_add_mod_self_right, Nat.mod_eq_of_lt hk]
  have hcol : (y * s.width.toNat + x) % s.width.toNat = x := by rw [Nat.mul_add_mod_self_right, Nat.mod_eq_of_lt hx]
  have hrow : (y * s.width.toNat + x) / s.width.toNat = y := by
    rw [mul_comm, Nat.mul_add_div (Nat.zero_lt_of_lt hx), Nat.div_eq_of_lt hx, Nat.add_zero]
  simp only [State.resultByte, hpix, hchan, hcol, hrow, State.blockOf]

/-- Where OUT holds an old byte, a new byte or the host's, so is every candidate. -/
theorem State.oldNewOrHost_of_mem_outCandidates (s : State) (f : Format) (x y k : Nat) (b : Byte) (hx : x < s.width.toNat)
    (hk : k < f.chan) (hs : s.OldNewOrHost f x y k (s.outMem.read (s.pixelByte f x y k)))
    (hb : b ∈ s.outCandidates f (s.pixelByte f x y k)) : s.OldNewOrHost f x y k b := by
  rcases List.mem_append.1 hb with hb | hlog
  · rcases List.mem_cons.1 hb with rfl | hb
    · exact hs
    · rcases List.mem_pair.1 hb with rfl | rfl
      · exact .inl rfl
      · obtain ⟨bs, hmix, hdec⟩ := s.mixedTexel_decodes f (s.blockOf x y) x y
        exact .inr (.inl ⟨bs, hmix, (s.resultByte_pixelByte f x y k hx hk).trans (hdec k)⟩)
  · exact .inr (.inr hlog)

/-! ## OUT after a reset during a command -/

/-- A byte of OUT after a reset during a command (R156). -/
theorem State.hostReset_read_running (s : State) (f : Format) (o : Nat) (h : s.running = some f) :
    s.hostReset.outMem.read o =
      if o < s.outSize f then pick .abandon s.freeCtr o (s.outMem.read o) (s.outAlternatives f o) else s.outMem.read o := by
  rw [State.hostReset, h]
  exact s.abandonOut_read f (s.outSize f) o

theorem State.hostReset_read_beyond (s : State) (f : Format) (o : Nat) (h : s.running = some f) (ho : s.outSize f ≤ o) :
    s.hostReset.outMem.read o = s.outMem.read o := by
  rw [s.hostReset_read_running f o h, if_neg (not_lt.2 ho)]

theorem State.hostReset_read_below (s : State) (f : Format) (o : Nat) (h : s.running = some f) (ho : o < s.outSize f) :
    s.hostReset.outMem.read o ∈ s.outCandidates f o := by
  rw [s.hostReset_read_running f o h, if_pos ho]
  exact s.pick_mem_outCandidates .abandon f o

@[simp] theorem State.hostReset_done (s : State) : s.hostReset.done = false := by
  rw [State.done, s.hostReset_status]
  rfl

/-- Settles O39: below `out_size` the reset picks one of the candidates. -/
theorem resetDuringCommand : Obligations.ResetDuringCommand := by
  unfold Obligations.ResetDuringCommand
  intro s rest f hh hrun
  have hrun' : (s.popHost rest).running = some f := by rwa [State.popHost_running]
  refine ⟨_, step_reset s rest hh, State.hostReset_done _, fun o => ⟨fun ho => ?_, fun ho => ?_, ?_⟩⟩
  · rw [State.hostReset_read_beyond _ f o hrun' ho, State.popHost_outMem]
  · exact State.hostReset_read_below _ f o hrun' ho
  · rintro hok x y k hx hy hk rfl
    exact (s.popHost rest).oldNewOrHost_of_mem_outCandidates f x y k _ hx hk (hok f hrun x y k hx hy hk)
      (State.hostReset_read_below _ f _ hrun' (s.pixelByte_lt f x y k hx hy hk))

/-! ## OUT read and written by the host -/

theorem State.outByteSeen_idle (s : State) (a : Nat) (hb : s.busy = false) : s.outByteSeen a = s.outMem.read a := by
  rw [State.outByteSeen, s.running_idle hb]

/-- At or above `out_size` the host sees the byte (R160). -/
theorem State.outByteSeen_beyond (s : State) (f : Format) (a : Nat) (h : s.running = some f) (ha : s.outSize f ≤ a) :
    s.outByteSeen a = s.outMem.read a := by
  rw [State.outByteSeen, h]
  exact if_neg (not_lt.2 ha)

/-- Below `out_size` of a running command the host sees one of the candidates (R160, U2). -/
theorem State.outByteSeen_below (s : State) (f : Format) (a : Nat) (h : s.running = some f) (ha : a < s.outSize f) :
    s.outByteSeen a ∈ s.outCandidates f a := by
  rw [State.outByteSeen, h]
  dsimp only
  rw [if_pos ha]
  exact s.pick_mem_outCandidates .read f a

/-- Settles O44: the byte seen is the byte, or below `out_size` of a running command one of the candidates. -/
theorem outputReadByHost : Obligations.OutputReadByHost := by
  unfold Obligations.OutputReadByHost
  intro s rest a hh
  refine ⟨(s.popHost rest).outByteSeen a, by rw [step_host s _ rest hh, hostStep, State.hostReadOut], fun hb => ?_,
    fun f hrun => ?_⟩
  · rw [State.outByteSeen_idle _ a (by rwa [State.popHost_busy]), State.popHost_outMem]
  · have hrun' : (s.popHost rest).running = some f := by rwa [State.popHost_running]
    refine ⟨fun ha => ?_, State.outByteSeen_below _ f a hrun'⟩
    rw [State.outByteSeen_beyond _ f a hrun' ha, State.popHost_outMem]

theorem State.hostWriteOut_idle (s : State) (a : Nat) (v : Byte) (hb : s.busy = false) :
    s.hostWriteOut a v = { s with outMem := s.outMem.write a v } := by
  rw [State.hostWriteOut, s.running_idle hb]

/-- At or above `out_size` a running command has no part in a write of OUT (R160). -/
theorem State.hostWriteOut_beyond (s : State) (f : Format) (a : Nat) (v : Byte) (h : s.running = some f)
    (ha : s.outSize f ≤ a) : s.hostWriteOut a v = { s with outMem := s.outMem.write a v } := by
  rw [State.hostWriteOut, h]
  exact if_neg (not_lt.2 ha)

/-- Below `out_size` of a running command the host's byte is logged, and may survive (R160; log 9). -/
theorem State.hostWriteOut_below (s : State) (f : Format) (a : Nat) (v : Byte) (h : s.running = some f)
    (ha : a < s.outSize f) : s.hostWriteOut a v = State.settleHostOut { s with outLog := (a, v) :: s.outLog } := by
  rw [State.hostWriteOut, h]
  exact if_pos ha

/-- The values logged for an offset after one more cell. -/
theorem logged_cons (log : List Host.Cell) (a o : Nat) (v : Byte) :
    logged ((a, v) :: log) o = if a = o then v :: logged log o else logged log o := by
  by_cases h : a = o
  · simp [logged, h]
  · simp [logged, h]

/-- Settles O45: below `out_size` every byte is settled with the new one logged. -/
theorem outputWriteByHost : Obligations.OutputWriteByHost := by
  unfold Obligations.OutputWriteByHost
  intro s rest a v hh
  rw [step_host s _ rest hh, hostStep]
  refine ⟨fun hb => ?_, fun f hrun => ?_⟩
  · rw [State.hostWriteOut_idle _ a v (by rwa [State.popHost_busy]), State.popHost_outMem]
  have hrun' : (s.popHost rest).running = some f := by rwa [State.popHost_running]
  refine ⟨fun ha => ?_, fun ha => ⟨_, rfl, ?_⟩⟩
  · rw [State.hostWriteOut_beyond _ f a v hrun' ha, State.popHost_outMem]
  have hset := State.settleHostOut_read { s.popHost rest with outLog := (a, v) :: s.outLog }
  rw [State.hostWriteOut_below _ f a v hrun' ha]
  refine ⟨?_, fun o ho hlog => ?_⟩
  · simpa [logged_cons] using hset a
  · simpa [logged_cons, logged_of_ne _ o hlog, Ne.symm ho] using hset o

end Sys2Proof.Machine
end

section
/-! Proofs: what every step keeps of OUT while a command runs. A block step, and a host write of IN into a block already
handled, change the pixels of one block (`State.BlockMixed`), and a step that keeps or mixes each byte of the image
(`State.OutKept`) keeps it old, new or the host's. -/
namespace Sys2Proof.Machine

/-! ## One block of OUT changed -/

/-- Whether bytes are a mixture of a block depends on IN and its log alone. -/
theorem State.mixture_congr {s t : State} (hm : t.inMem = s.inMem) (hl : t.inLog = s.inLog) (f : Format) (n : Nat)
    (bs : List Byte) : t.Mixture f n bs ↔ s.Mixture f n bs := by
  rw [State.Mixture, hm, hl, State.Mixture]

/-- OUT in `t` is OUT in `s` but for block `n`, each of whose pixels shows a mixture of its own; a byte the host wrote during
the command may stand instead of either (R159, R160; logs 8, 9). -/
structure State.BlockMixed (s t : State) (f : Format) (n : Nat) : Prop where
  pixel : ∀ x y, x < s.width.toNat → y < s.height.toNat → s.blockOf x y = n →
    ∃ bs, t.Mixture f n bs ∧ ∀ k, k < f.chan →
      t.outMem.read (s.pixelByte f x y k) ∈ decodedByte f bs x y k :: logged t.outLog (s.pixelByte f x y k)
  elsewhere : ∀ o, (∀ x y k, x < s.width.toNat → y < s.height.toNat → k < f.chan → s.blockOf x y = n →
      o ≠ s.pixelByte f x y k) →
    t.outMem.read o ∈ s.outMem.read o :: logged t.outLog o

/-- A byte of another block's pixel is elsewhere (R127). -/
theorem State.BlockMixed.otherBlock {s t : State} {f : Format} {n : Nat} (h : s.BlockMixed t f n) (x y k : Nat)
    (hx : x < s.width.toNat) (hk : k < f.chan) (hb : s.blockOf x y ≠ n) :
    t.outMem.read (s.pixelByte f x y k) ∈
      s.outMem.read (s.pixelByte f x y k) :: logged t.outLog (s.pixelByte f x y k) := by
  refine h.elsewhere _ fun x' y' k' hx' _ hk' hb' e => hb ?_
  obtain ⟨rfl, rfl, -⟩ := s.pixelByte_inj f x y k x' y' k' hx hx' hk hk' e
  exact hb'

/-! ## A block that the host has rewritten -/

/-- A block one of whose bytes the host rewrote is stored again (R159). -/
theorem State.mixedOut_touched (s : State) (f : Format) (n : Nat) (h : ∃ c ∈ s.inLog, c.1 / f.size = n) :
    s.mixedOut f n = (State.storePatch (State.loadPatch
      { s with bxi := BitVec.ofNat 30 (n % s.blocksWide), byi := BitVec.ofNat 30 (n / s.blocksWide) }
      (texels (s.mixedTexel f n))) f).outMem := by
  rw [State.mixedOut, if_pos]
  simpa using h

/-- A pixel of a block stored again shows its own texel (R45, U3). -/
theorem State.mixedOut_pixel (s : State) (f : Format) (n : Nat) (hn : n < s.nblocks)
    (ht : ∃ c ∈ s.inLog, c.1 / f.size = n) (x y k : Nat) (hx : x < s.width.toNat) (hy : y < s.height.toNat)
    (hk : k < f.chan) (hb : s.blockOf x y = n) :
    (s.mixedOut f n).read (s.pixelByte f x y k) = (s.mixedTexel f n (4 * (y % 4) + x % 4)).getD k 0 := by
  obtain ⟨hbx, hby⟩ := s.block_in_grid n hn
  obtain ⟨ex, ey⟩ := (s.blockOf_eq x y n hx).1 hb
  have hst := State.storePatch_pixel
    { s with bxi := BitVec.ofNat 30 (n % s.blocksWide), byi := BitVec.ofNat 30 (n / s.blocksWide) } f _
    (s.mixedTexel_length f n) x y k hx hy hk (ex.trans hbx.symm) (ey.trans hby.symm)
  rw [texels_getD _ _ (by omega)] at hst
  rw [s.mixedOut_touched f n ht]
  exact hst

/-- Settling a block that the host has rewritten mixes it (R159). -/
theorem State.settleBlock_blockMixed (s : State) (f : Format) (n : Nat) (hn : n < s.nblocks)
    (ht : ∃ c ∈ s.inLog, c.1 / f.size = n) : s.BlockMixed (s.settleBlock f n) f n where
  pixel x y hx hy hb := by
    obtain ⟨bs, hmix, hdec⟩ := s.mixedTexel_decodes f n x y
    refine ⟨bs, hmix, fun k hk => ?_⟩
    have hset := State.settleHostOut_read { s with outMem := s.mixedOut f n } (s.pixelByte f x y k)
    dsimp only at hset
    rw [s.mixedOut_pixel f n hn ht x y k hx hy hk hb, hdec] at hset
    rw [State.settleBlock_outLog]
    exact hset
  elsewhere o ho := by
    rw [State.settleBlock_outLog]
    exact s.settleBlock_elsewhere f n hn o ho

/-! ## The block step of a running command -/

/-- The pixels of a running command's block are those at the counters (R127). -/
theorem State.CommandOk.blockOf_eq_iff {s : State} {f : Format} (h : s.CommandOk f) (x y : Nat) (hx : x < s.width.toNat) :
    s.blockOf x y = s.blockNumber ↔ x / 4 = s.bxi.toNat ∧ y / 4 = s.byi.toNat := by
  have hat : State.AtBlock { s with host := [], status := statusWord true false 0 } f s.blockNumber :=
    ⟨rfl, State.busy_mk { s with host := [] } true false 0, h.congr rfl rfl rfl rfl rfl rfl rfl, rfl⟩
  exact hat.blockOf_eq_iff hx

theorem State.CommandOk.cur_eq {s : State} {f : Format} (h : s.CommandOk f) : s.cur.toNat = s.blockNumber * f.size :=
  h.cursor

/-- The core's own step while a command runs is its block step (R122). -/
theorem State.CommandOk.coreStep {s : State} {f : Format} (h : s.CommandOk f) (hb : s.busy = true) :
    coreStep s = .next (s.blockStep f) := by
  rw [coreStep_running s f hb h.legal, State.blockStep, State.storedBlock, State.finishBlock]

/-- What a block step stores in its block, before what the host did is settled (R121, R124). -/
theorem State.CommandOk.storedBlock_pixel {s : State} {f : Format} (h : s.CommandOk f) (x y k : Nat)
    (hx : x < s.width.toNat) (hy : y < s.height.toNat) (hk : k < f.chan) (hb : s.blockOf x y = s.blockNumber) :
    (s.storedBlock f).outMem.read (s.pixelByte f x y k) =
      decodedByte f (s.fetchBytes (s.blockNumber * f.size) f.size) x y k := by
  obtain ⟨ex, ey⟩ := (h.blockOf_eq_iff x y hx).1 hb
  rw [State.storedBlock, h.cur_eq]
  exact s.fetchBlock.storePatch_pixel f _ (fun t ht => decPatch_getD_length f _ t ht) x y k hx hy hk ex ey

/-- A block step stores nothing outside its block (R124). -/
theorem State.CommandOk.storedBlock_elsewhere {s : State} {f : Format} (h : s.CommandOk f) (o : Nat)
    (ho : ∀ x y k, x < s.width.toNat → y < s.height.toNat → k < f.chan → s.blockOf x y = s.blockNumber →
      o ≠ s.pixelByte f x y k) : (s.storedBlock f).outMem.read o = s.outMem.read o := by
  rw [State.storedBlock, State.storePatch_elsewhere, State.fetchBlock_outMem]
  exact fun x y k hx hy hk ex ey => ho x y k hx hy hk ((h.blockOf_eq_iff x y hx).2 ⟨ex, ey⟩)

/-- A block step mixes its own block: what it stores is one mixture, and settling keeps that or takes another (R159). -/
theorem State.CommandOk.blockStep_blockMixed {s : State} {f : Format} (h : s.CommandOk f) :
    s.BlockMixed (s.blockStep f) f s.blockNumber := by
  set u := (s.storedBlock f).advance f with hu
  have hstep : s.blockStep f = u.settleBlock f s.blockNumber := by
    rw [State.blockStep, h.cur_eq, Nat.mul_div_cancel _ f.size_pos]
  have hw : u.width = s.width := by simp [hu, State.storedBlock]
  have hh : u.height = s.height := by simp [hu, State.storedBlock]
  have hin : u.inMem = s.inMem := by simp [hu, State.storedBlock]
  have hil : u.inLog = s.inLog := by simp [hu, State.storedBlock]
  have hol : u.outLog = s.outLog := by simp [hu, State.storedBlock]
  have hout : u.outMem = (s.storedBlock f).outMem := State.advance_outMem _ f
  have hn : s.blockNumber < u.nblocks := by simpa [hu, State.storedBlock] using h.blockNumber_lt
  have hblk := State.blockOf_congr hw
  have hpix := State.pixelByte_congr hw f
  have hmix := State.mixture_congr (s.blockStep_inMem f) (s.blockStep_inLog f) f s.blockNumber
  refine ⟨fun x y hx hy hb => ?_, fun o ho => ?_⟩
  · have hset := u.settleBlock_pixel f _ hn x y (hw ▸ hx) (hh ▸ hy) ((hblk x y).trans hb)
    simp only [← hstep, hpix, hol, hout] at hset
    simp only [hmix, State.blockStep_outLog]
    rcases hset with hkept | ⟨bs, hbs, hdec⟩
    · refine ⟨_, s.mixture_fetchBytes f _, fun k hk => ?_⟩
      rw [← h.storedBlock_pixel x y k hx hy hk hb]
      exact hkept k hk
    · exact ⟨bs, (State.mixture_congr hin hil f _ bs).1 hbs, hdec⟩
  · have hset := u.settleBlock_elsewhere f _ hn o (by simpa only [hw, hh, hblk, hpix] using ho)
    rwa [← hstep, hol, hout, h.storedBlock_elsewhere o ho, ← State.blockStep_outLog s f] at hset

/-- The core's own step is taken with no access pending or with pass, which changes neither memory nor register (log 1). -/
theorem step_eq_coreStep (s : State) (h : s.host = [] ∨ ∃ rest, s.host = .pass :: rest) :
    ∃ host ctr, step s = coreStep { s with host := host, freeCtr := ctr } := by
  rcases h with hh | ⟨rest, hh⟩
  · exact ⟨s.host, s.freeCtr, step_noHost s hh⟩
  · exact ⟨rest, s.freeCtr + 1, step_host s .pass rest hh⟩

/-- Settles O57: the block at the counters is the one that the step mixes. -/
theorem blockStepShowsMixtures : Obligations.BlockStepShowsMixtures := by
  unfold Obligations.BlockStepShowsMixtures
  intro s f hhost hb hs
  obtain ⟨host, ctr, hstep⟩ := step_eq_coreStep s hhost
  set u : State := { s with host := host, freeCtr := ctr }
  have hcmd : u.CommandOk f := hs.congr rfl rfl rfl rfl rfl rfl rfl
  have hmixed := hcmd.blockStep_blockMixed
  refine ⟨u.blockStep f, hstep.trans (hcmd.coreStep hb), fun x y hx hy ex ey => ?_, fun o ho => ?_⟩
  · have hblk := (hcmd.blockOf_eq_iff x y hx).2 ⟨ex, ey⟩
    obtain ⟨bs, hbs, hdec⟩ := hmixed.pixel x y hx hy hblk
    rw [State.mixture_congr (u.blockStep_inMem f) (u.blockStep_inLog f), ← hblk] at hbs
    rw [State.blockStep_outLog] at hdec
    exact ⟨bs, hbs, hdec⟩
  · have hkept := hmixed.elsewhere o fun x y k hx hy hk hblk => by
      obtain ⟨ex, ey⟩ := (hcmd.blockOf_eq_iff x y hx).1 hblk
      exact ho x y k hx hy hk ex ey
    rwa [State.blockStep_outLog] at hkept

/-! ## IN written by the host while a command runs -/

/-- IN after a host write below `required`: the byte, and in the log the byte it had (R159; log 8). -/
def State.rewriteIn (s : State) (a : Nat) (v : Byte) : State :=
  { s with inMem := s.inMem.write a v, inLog := (a, s.inMem.read a) :: s.inLog }

/-- At or above `required` a write of IN is a write of IN alone (R36). -/
theorem State.hostWriteIn_beyond (s : State) (f : Format) (a : Nat) (v : Byte) (h : s.running = some f)
    (ha : s.required f ≤ a) : s.hostWriteIn a v = { s with inMem := s.inMem.write a v } := by
  rw [State.hostWriteIn, h]
  exact if_neg (not_lt.2 ha)

/-- Below `required` the byte's block is done again if it has been handled (R159). -/
theorem State.hostWriteIn_below (s : State) (f : Format) (a : Nat) (v : Byte) (h : s.running = some f)
    (ha : a < s.required f) : s.hostWriteIn a v = (s.rewriteIn a v).redoBlock f (a / f.size) := by
  rw [State.hostWriteIn, h]
  exact if_pos ha

theorem State.redoBlock_handled (s : State) (f : Format) (n : Nat) (h : n * f.size < s.cur.toNat) :
    s.redoBlock f n = s.settleBlock f n := if_pos h

theorem State.redoBlock_toCome (s : State) (f : Format) (n : Nat) (h : s.cur.toNat ≤ n * f.size) :
    s.redoBlock f n = s := if_neg (not_lt.2 h)

/-- A byte of the input is in one of the blocks (R120). -/
theorem State.div_size_lt_nblocks (s : State) (f : Format) (a : Nat) (ha : a < s.required f) :
    a / f.size < s.nblocks := Nat.div_lt_of_lt_mul (by rwa [State.required, mul_comm] at ha)

/-- A byte of one of the blocks is below `required` (R120). -/
theorem State.block_byte_lt_required (s : State) (f : Format) (n i : Nat) (hn : n < s.nblocks) (hi : i < f.size) :
    n * f.size + i < s.required f := by
  calc n * f.size + i < (n + 1) * f.size := by rw [Nat.succ_mul]; omega
    _ ≤ s.required f := Nat.mul_le_mul_right _ hn

/-- Each use of a byte sees what IN holds or what it held since START (R159; log 8). -/
theorem State.seenByte_mem (s : State) (use : FreeUse) (a : Nat) :
    s.seenByte use a ∈ s.inMem.read a :: logged s.inLog a := pick_mem _ _ _ _ _

/-- What the fetch sees of a byte that the host has rewritten. -/
theorem State.rewriteIn_fetchByte (s : State) (a : Nat) (v : Byte) :
    (s.rewriteIn a v).fetchByte a ∈ [v, s.inMem.read a] ++ logged s.inLog a := by
  have hseen := (s.rewriteIn a v).seenByte_mem .fetch a
  rwa [State.rewriteIn, Memory.read_write, if_pos rfl, logged_cons, if_pos rfl] at hseen

/-- Settles O42: at or above `required`, and below it in a block handled or still to come. -/
theorem inputWriteWhileBusy : Obligations.InputWriteWhileBusy := by
  unfold Obligations.InputWriteWhileBusy
  intro s rest f a v hh hrun
  have hrun' : (s.popHost rest).running = some f := by rwa [State.popHost_running]
  rw [step_host s _ rest hh, hostStep]
  refine ⟨fun ha => ?_, fun ha => ?_⟩
  · rw [State.hostWriteIn_beyond _ f a v hrun' ha, State.popHost_inMem]
  · obtain ⟨m, e⟩ := ((s.popHost rest).rewriteIn a v).redoBlock_frame f (a / f.size)
    rw [State.hostWriteIn_below _ f a v hrun' ha, e]
    refine ⟨_, rfl, rfl, (s.popHost rest).rewriteIn_fetchByte a v, rfl, rfl, rfl, rfl, rfl, rfl, rfl, rfl,
      fun hcur => ?_⟩
    rw [State.redoBlock_toCome ((s.popHost rest).rewriteIn a v) f _ hcur] at e
    exact (congrArg State.outMem e).symm

/-- Settles O43: the byte is logged, so settling its block mixes that block. -/
theorem rewrittenInputGivesMixtures : Obligations.RewrittenInputGivesMixtures := by
  unfold Obligations.RewrittenInputGivesMixtures
  intro s rest f a v hh hrun ha hcur
  have hrun' : (s.popHost rest).running = some f := by rwa [State.popHost_running]
  have hmixed := ((s.popHost rest).rewriteIn a v).settleBlock_blockMixed f (a / f.size) (s.div_size_lt_nblocks f a ha)
    ⟨_, List.mem_cons_self, rfl⟩
  refine ⟨((s.popHost rest).rewriteIn a v).settleBlock f (a / f.size), ?_, hmixed.pixel, hmixed.elsewhere⟩
  rw [step_host s _ rest hh, hostStep, State.hostWriteIn_below _ f a v hrun' ha,
    State.redoBlock_handled ((s.popHost rest).rewriteIn a v) f _ hcur]

/-! ## Each byte of the image stays old, new or the host's -/

/-- From `s` to `t` a byte of the image is kept, or shows a mixture of its block, or is one the host wrote there. -/
def State.KeptOrMixed (s t : State) (f : Format) (x y k : Nat) : Prop :=
  let o := s.pixelByte f x y k
  t.outMem.read o ∈ s.outMem.read o :: logged t.outLog o ∨
  ∃ bs, t.Mixture f (s.blockOf x y) bs ∧ t.outMem.read o ∈ decodedByte f bs x y k :: logged t.outLog o

/-- From `s` to `t` a command that still runs keeps its image, its old bytes, its mixtures and its log of OUT, and each byte
of the image is kept or mixed. -/
structure State.OutKept (s t : State) : Prop where
  running : ∀ f, t.running = some f → s.running = some f
  width : t.width = s.width
  height : t.height = s.height
  old : t.outOld = s.outOld
  log : ∀ o, ∀ c ∈ logged s.outLog o, c ∈ logged t.outLog o
  mixture : ∀ f n bs, s.running = some f → n < s.nblocks → s.Mixture f n bs → t.Mixture f n bs
  byte : ∀ f x y k, s.running = some f → x < s.width.toNat → y < s.height.toNat → k < f.chan → s.KeptOrMixed t f x y k

theorem State.OutKept.outBytesOk {s t : State} (h : s.OutKept t) (hs : s.OutBytesOk) : t.OutBytesOk := by
  intro f hrun x y k hx hy hk
  have hpix := State.pixelByte_congr h.width f x y k
  have hblk := State.blockOf_congr h.width x y
  have hrun' := h.running f hrun
  rw [h.width] at hx
  rw [h.height] at hy
  have hold : t.OldNewOrHost f x y k (s.outMem.read (t.pixelByte f x y k)) := by
    rw [hpix]
    exact s.OldNewOrHost_mono t f x y k _ h.old h.width (fun bs => h.mixture f _ bs hrun' (s.blockOf_lt x y hx hy)) h.log
      (hs f hrun' x y k hx hy hk)
  have hbyte := h.byte f x y k hrun' hx hy hk
  rw [State.KeptOrMixed, ← hpix, ← hblk] at hbyte
  rcases hbyte with hkept | ⟨bs, hbs, hnew⟩
  · exact t.OldNewOrHost_logged f x y k _ _ hold hkept
  · exact t.OldNewOrHost_logged f x y k _ _ (.inr (.inl ⟨bs, hbs, rfl⟩)) hnew

/-- The bytes of the image when one block is mixed. -/
theorem State.BlockMixed.byte {s t : State} {f : Format} {n : Nat} (h : s.BlockMixed t f n) (x y k : Nat)
    (hx : x < s.width.toNat) (hy : y < s.height.toNat) (hk : k < f.chan) : s.KeptOrMixed t f x y k := by
  by_cases hb : s.blockOf x y = n
  · obtain ⟨bs, hbs, hdec⟩ := h.pixel x y hx hy hb
    exact .inr ⟨bs, hb.symm ▸ hbs, hdec k hk⟩
  · exact .inl (h.otherBlock x y k hx hk hb)

/-- With no command running OUT may hold anything. -/
theorem State.outBytesOk_of_not_running (s : State) (h : s.running = none) : s.OutBytesOk :=
  fun f hrun => absurd (h.symm.trans hrun) (Option.some_ne_none f).symm

theorem State.outBytesOk_of_idle (s : State) (hb : s.busy = false) : s.OutBytesOk :=
  s.outBytesOk_of_not_running (s.running_idle hb)

/-! ## What each kind of step keeps of OUT -/

theorem State.CommandOk.blockStep_outKept {s : State} {f : Format} (h : s.CommandOk f) (hb : s.busy = true) :
    s.OutKept (s.blockStep f) where
  running g hg := by
    have hfmt : (s.blockStep f).format = s.format := (s.blockStep_sameInput f).2.1
    rw [State.running_some, hfmt] at hg
    exact (s.running_some g).2 ⟨hb, hg.2⟩
  width := s.blockStep_width f
  height := s.blockStep_height f
  old := by simp [State.blockStep, State.storedBlock]
  log o c hc := by rwa [State.blockStep_outLog]
  mixture g n bs _ _ := (State.mixture_congr (s.blockStep_inMem f) (s.blockStep_inLog f) g n bs).2
  byte g x y k hg hx hy hk := by
    obtain rfl : f = g := Option.some.inj (h.legal.symm.trans ((s.running_some g).1 hg).2)
    exact h.blockStep_blockMixed.byte x y k hx hy hk

theorem coreStep_outBytesOk (s t : State) (hs : s.Inv) (hok : s.OutBytesOk) (h : coreStep s = .next t) :
    t.OutBytesOk := by
  cases hb : s.busy with
  | false =>
    rw [coreStep_idle s hb] at h
    exact Host.Outcome.next.inj h ▸ hok
  | true =>
    obtain ⟨f, hf⟩ := hs.command hb
    rw [hf.coreStep hb] at h
    exact Host.Outcome.next.inj h ▸ (hf.blockStep_outKept hb).outBytesOk hok

/-- An accepted command has written nothing yet: OUT holds the old bytes (R148; log 7). -/
theorem checkStep_outBytesOk (s t : State) (h : checkStep s = .next t) : t.OutBytesOk := by
  rcases checkStep_cases s t h with ⟨e, rfl⟩ | ⟨f, -, -, -, -, rfl⟩
  · exact State.outBytesOk_of_idle _ (State.raiseError_busy _ e)
  · exact fun _ _ _ _ _ _ _ _ => .inl rfl

/-- A write of the configuration is ignored while a command runs (R158). -/
theorem State.configWrite_outBytesOk (s : State) (hok : s.OutBytesOk) (fmt : BitVec 3) (w h : BitVec 32) (len : BitVec 64) :
    State.OutBytesOk (if s.busy then s else { s with format := fmt, width := w, height := h, inLen := len }) := by
  split
  · exact hok
  · next hb => exact State.outBytesOk_of_idle _ (Bool.eq_false_iff.2 hb)

/-- A change of IN that takes no value from any byte of the blocks leaves what OUT may hold. -/
theorem State.outKept_of_input (s : State) (inMem : Memory) (inLog : List Host.Cell)
    (h : ∀ f j, s.running = some f → j < s.required f → ∀ b ∈ s.inMem.read j :: logged s.inLog j,
      b ∈ inMem.read j :: logged inLog j) : s.OutKept { s with inMem := inMem, inLog := inLog } where
  running _ := id
  width := rfl
  height := rfl
  old := rfl
  log _ _ := id
  mixture f n _ hrun hn hbs := ⟨hbs.1, fun i hi => h f _ hrun (s.block_byte_lt_required f n i hn hi) _ (hbs.2 i hi)⟩
  byte _ _ _ _ _ _ _ _ := .inl List.mem_cons_self

/-- A rewritten byte can still show every value it has had (R159; log 8). -/
theorem State.rewriteIn_outKept (s : State) (a : Nat) (v : Byte) : s.OutKept (s.rewriteIn a v) := by
  refine s.outKept_of_input _ _ fun f j _ _ b hb => ?_
  rw [Memory.read_write, logged_cons]
  by_cases hj : j = a
  · subst hj
    rw [if_pos rfl, if_pos rfl]
    exact List.mem_cons_of_mem _ hb
  · rwa [if_neg hj, if_neg (Ne.symm hj)]

theorem State.settleBlock_outKept (s : State) (f : Format) (n : Nat) (hrun : s.running = some f) (hn : n < s.nblocks)
    (ht : ∃ c ∈ s.inLog, c.1 / f.size = n) : s.OutKept (s.settleBlock f n) where
  running _ hg := by rwa [State.running, State.settleBlock_busy, State.settleBlock_format] at hg
  width := s.settleBlock_width f n
  height := s.settleBlock_height f n
  old := s.settleBlock_outOld f n
  log o c hc := by rwa [State.settleBlock_outLog]
  mixture g m bs _ _ := (State.mixture_congr (s.settleBlock_inMem f n) (s.settleBlock_inLog f n) g m bs).2
  byte g x y k hg hx hy hk := by
    obtain rfl : f = g := Option.some.inj (hrun.symm.trans hg)
    exact (s.settleBlock_blockMixed f n hn ht).byte x y k hx hy hk

theorem State.hostWriteIn_outBytesOk (s : State) (a : Nat) (v : Byte) (hok : s.OutBytesOk) :
    (s.hostWriteIn a v).OutBytesOk := by
  cases hrun : s.running with
  | none =>
    rw [State.hostWriteIn, hrun]
    exact State.outBytesOk_of_not_running _ hrun
  | some f =>
    rcases lt_or_ge a (s.required f) with ha | ha
    · have hrew := (s.rewriteIn_outKept a v).outBytesOk hok
      rw [s.hostWriteIn_below f a v hrun ha]
      rcases lt_or_ge (a / f.size * f.size) s.cur.toNat with hcur | hcur
      · rw [State.redoBlock_handled (s.rewriteIn a v) f _ hcur]
        exact (State.settleBlock_outKept (s.rewriteIn a v) f _ hrun (s.div_size_lt_nblocks f a ha)
          ⟨_, List.mem_cons_self, rfl⟩).outBytesOk hrew
      · rwa [State.redoBlock_toCome (s.rewriteIn a v) f _ hcur]
    · rw [s.hostWriteIn_beyond f a v hrun ha]
      refine (s.outKept_of_input (s.inMem.write a v) s.inLog fun g j hg hj b hb => ?_).outBytesOk hok
      obtain rfl : f = g := Option.some.inj (hrun.symm.trans hg)
      rwa [Memory.read_write, if_neg (by omega)]

/-- A change of OUT that keeps each byte of the image or takes one the host wrote there. -/
theorem State.outKept_of_output (s : State) (outMem : Memory) (outLog : List Host.Cell)
    (hlog : ∀ o, ∀ c ∈ logged s.outLog o, c ∈ logged outLog o)
    (h : ∀ f o, s.running = some f → o < s.outSize f → outMem.read o ∈ s.outMem.read o :: logged outLog o) :
    s.OutKept { s with outMem := outMem, outLog := outLog } where
  running _ := id
  width := rfl
  height := rfl
  old := rfl
  log := hlog
  mixture _ _ _ _ _ := id
  byte f x y k hrun hx hy hk := .inl (h f _ hrun (s.pixelByte_lt f x y k hx hy hk))

theorem State.hostWriteOut_outBytesOk (s : State) (a : Nat) (v : Byte) (hok : s.OutBytesOk) :
    (s.hostWriteOut a v).OutBytesOk := by
  cases hrun : s.running with
  | none =>
    rw [State.hostWriteOut, hrun]
    exact State.outBytesOk_of_not_running _ hrun
  | some f =>
    rcases lt_or_ge a (s.outSize f) with ha | ha
    · rw [s.hostWriteOut_below f a v hrun ha]
      refine (s.outKept_of_output _ ((a, v) :: s.outLog) (fun o c hc => ?_) fun g o _ _ =>
        State.settleHostOut_read { s with outLog := (a, v) :: s.outLog } o).outBytesOk hok
      rw [logged_cons]
      split
      · exact List.mem_cons_of_mem _ hc
      · exact hc
    · rw [s.hostWriteOut_beyond f a v hrun ha]
      refine (s.outKept_of_output (s.outMem.write a v) s.outLog (fun _ _ => id) fun g o hg ho => ?_).outBytesOk hok
      obtain rfl : f = g := Option.some.inj (hrun.symm.trans hg)
      rw [Memory.read_write, if_neg (by omega)]
      exact List.mem_cons_self

/-- Every access of the host keeps what OUT may hold. -/
theorem hostStep_outBytesOk (op : HostOp) (s t : State) (hs : s.Inv) (hok : s.OutBytesOk) (h : hostStep op s = .next t) :
    t.OutBytesOk := by
  cases op with
  | pass => exact coreStep_outBytesOk s t hs hok h
  | writeCtrl v =>
    rcases writeCtrl_cases v s t h with ⟨-, rfl⟩ | ⟨-, -, hcheck⟩
    · exact hok
    · exact checkStep_outBytesOk s t hcheck
  | reset => cases h; exact State.outBytesOk_of_idle _ s.hostReset_busy
  | writeFormat v => cases h; exact s.configWrite_outBytesOk hok v s.width s.height s.inLen
  | writeWidth v => cases h; exact s.configWrite_outBytesOk hok s.format v s.height s.inLen
  | writeHeight v => cases h; exact s.configWrite_outBytesOk hok s.format s.width v s.inLen
  | writeInLen v => cases h; exact s.configWrite_outBytesOk hok s.format s.width s.height v
  | readReg r => cases h; exact hok
  | readOut a => cases h; exact hok
  | writeIn a v => cases h; exact s.hostWriteIn_outBytesOk a v hok
  | writeOut a v => cases h; exact s.hostWriteOut_outBytesOk a v hok

/-- Settles O58, by the host's access or, with none pending, the core's own step. -/
theorem outBytesKeptOldOrNew : Obligations.OutBytesKeptOldOrNew := by
  unfold Obligations.OutBytesKeptOldOrNew
  intro s t hs hok h
  rcases hh : s.host with _ | ⟨op, rest⟩
  · rw [step_noHost s hh] at h
    exact coreStep_outBytesOk s t hs hok h
  · rw [step_host s op rest hh] at h
    exact hostStep_outBytesOk op _ t ((s.popHost_coreKept rest).inv hs) hok h

end Sys2Proof.Machine
end
